-- ==== Sys2Proof/Word.lean ====
section
/-!
DEFINITION. The machine word (spec R9): a W-bit two's-complement integer. The width W is a parameter of the
spec (R8), so every word of the model is held as the integer it stands for, an `Int`; `fits W x` says that the integer is a W-bit Word, and
the invariant of Safety.lean says that every word of a state is one (log 1). Wrapping is in Machine/WordArith.lean.
-/

namespace Sys2Proof

/-- `2^(W-1)`: the number of non-negative W-bit Words (R9). -/
def half (W : Nat) : Int := ((2 ^ (W - 1) : Nat) : Int)

/-- `2^W`: the number of W-bit Words (R9). -/
def modulus (W : Nat) : Int := ((2 ^ W : Nat) : Int)

/-- The range of a W-bit Word, `-2^(W-1) .. 2^(W-1)-1` (R9). -/
abbrev fits (W : Nat) (x : Int) : Prop := -half W ≤ x ∧ x < half W

end Sys2Proof
end

