-- ==== Sys2Proof/Machine/WordArith.lean ====
section
/-!
DEFINITION. Arithmetic on Words: `wrap W x` is the spec's `wrap_W(x)` (R9), the W-bit Word congruent to `x` modulo `2^W`.
-/

namespace Sys2Proof

/-- `wrap_W(x)`: the unique W-bit Word congruent to the integer `x` modulo `2^W` (R9). -/
def wrap (W : Nat) (x : Int) : Int := (x + half W) % modulus W - half W

end Sys2Proof
end

