-- ==== Sys2Proof/Config.lean ====
section
/-!
DEFINITION. The parameters of the block (spec R8, R240, R261) and the wiring they fix (R241), with the one free value
of the model: the arbiter's choice of which enabled instance steps next (R246).
-/

namespace Sys2Proof

/-- CHAN_CAP (R8, R84): the capacity of a channel whose consumer is a machine instance. -/
inductive Capacity where
  | unbounded
  | bounded (k : Nat)
  deriving DecidableEq, Repr

/-- EXTRA_DIGITS (R8, R118): what the decoder does with digits that no parameter uses. -/
inductive ExtraDigits where
  | ignore
  | fault
  deriving DecidableEq, Repr

/-- The host's two entry points and their arguments (R260): `buildNetwork` with PHASES, FEEDBACK and DRIVE_VALUE (R240), and
`runOnce` with its list of inputs (R261). -/
inductive Entry where
  | network (phases : List Int) (feedback : Bool) (drive : Int)
  | runOnce (inputs : List Int)
  deriving DecidableEq, Repr

/-- The parameters of R8. They are fixed for a run (R242, R44); they stand in the state because the step has no other argument
(log 3). -/
structure Config where
  /-- W, the word width in bits. -/
  wordBits : Nat
  /-- MEM_WORDS, the number of addressable memory words. -/
  memWords : Nat
  /-- CHAN_CAP. -/
  chanCap : Capacity
  /-- EXTRA_DIGITS. -/
  extraDigits : ExtraDigits
  /-- The entry point: N, FEEDBACK, PHASES and DRIVE_VALUE, or the inputs of `runOnce`. -/
  entry : Entry
  /-- PROGRAM, the initial memory image of every instance. -/
  program : List Int
  deriving DecidableEq, Repr

/-- The arbiter's choice of the instance that steps next, where the state's own `schedule` names none: free (R246, D19; log 6). The
argument counts the choices taken. -/
opaque Config.freeChoice : Nat → Nat

/-- N, the number of machine instances: `len(PHASES)` (R240), and 1 for `runOnce` (R261). -/
def Config.instances (c : Config) : Nat :=
  match c.entry with
  | .network phases _ _ => phases.length
  | .runOnce _ => 1

/-- FEEDBACK; `runOnce` is single pass (R261). -/
def Config.feedback (c : Config) : Bool :=
  match c.entry with
  | .network _ f _ => f
  | .runOnce _ => false

/-- The entry point is `runOnce` (R261). -/
def Config.isRunOnce (c : Config) : Bool :=
  match c.entry with
  | .network _ _ _ => false
  | .runOnce _ => true

/-- The terminal instance, `N-1` (R241, D23). -/
def Config.terminal (c : Config) : Nat := c.instances - 1

/-- The number of channels: `ch[0] .. ch[N-1]`, and in single-pass mode the `sink` after them, at index N (R241). -/
def Config.channels (c : Config) : Nat :=
  if c.feedback then c.instances else c.instances + 1

/-- The output channel `out(i)` of instance `i` (R241): `ch[i+1]`, and for the terminal instance `ch[0]` with FEEDBACK and the
`sink`, channel N, in single pass. -/
def Config.outChannel (c : Config) (i : Nat) : Nat :=
  if i + 1 < c.instances then i + 1 else if c.feedback then 0 else c.instances

/-- The defaults of R8 (W = 64, MEM_WORDS = 2^63, UNBOUNDED, IGNORE, DRIVE_VALUE = 0). R8 gives PROGRAM, PHASES and FEEDBACK no
default: the empty program, one instance with phase 0, and single pass are the model's choice (DESIGN CHOICE, log 2). -/
def Config.default : Config :=
  { wordBits := 64, memWords := 2 ^ 63, chanCap := .unbounded, extraDigits := .ignore,
    entry := .network [0] false 0, program := [] }

end Sys2Proof
end

