-- ==== Sys2Proof/Syntax.lean ====
section
/-!
DEFINITION. The ten instructions (spec R2, R113) as the decoder gives them: an operation and one mode for each parameter (R120,
`Decoded(op, n, d, dst)`). The parameter slots are memory words that the instruction reads when it runs (R110, R122), so they
are no part of the decoded instruction.
-/

namespace Sys2Proof

/-- A parameter mode (R116): Position (0), Immediate (1), Relative (2). -/
inductive Mode where
  | position
  | immediate
  | relative
  deriving DecidableEq, Repr

/-- The instructions, one constructor a row of the opcode map (R113), with the modes of their parameters in order. -/
inductive Instr where
  /-- ADD a, b, dest (R170). -/
  | add (a b dest : Mode)
  /-- MUL a, b, dest (R171). -/
  | mul (a b dest : Mode)
  /-- IN dest (R180). -/
  | inp (dest : Mode)
  /-- OUT a (R181). -/
  | out (a : Mode)
  /-- JT condition, target (R190). -/
  | jt (a b : Mode)
  /-- JF condition, target (R191). -/
  | jf (a b : Mode)
  /-- LT a, b, dest (R200). -/
  | lt (a b dest : Mode)
  /-- EQ a, b, dest (R201). -/
  | eq (a b dest : Mode)
  /-- ARB a (R210). -/
  | arb (a : Mode)
  /-- HALT (R215). -/
  | halt
  deriving DecidableEq, Repr

/-- The sub-codes of a DecodeFault (R221), which name why a word is no instruction. -/
inductive DecodeSub where
  /-- `w mod 100` is no opcode (R119). -/
  | badOpcode
  /-- `w < 0` (R112). -/
  | negativeWord
  /-- A used mode digit from 3 to 9 (R116). -/
  | badMode
  /-- Mode 1 on the destination (R117). -/
  | immediateDestination
  /-- Unused digits non-zero under EXTRA_DIGITS = FAULT (R118). -/
  | extraDigits
  deriving DecidableEq, Repr

/-- The modes of an instruction's parameters, in parameter order. -/
def Instr.modes : Instr → List Mode
  | .add a b d => [a, b, d]
  | .mul a b d => [a, b, d]
  | .inp d => [d]
  | .out a => [a]
  | .jt a b => [a, b]
  | .jf a b => [a, b]
  | .lt a b d => [a, b, d]
  | .eq a b d => [a, b, d]
  | .arb a => [a]
  | .halt => []

end Sys2Proof
end

