-- ==== Sys2Proof/WellFormed.lean ====
section
/-!
DEFINITION. The checks on data that comes from outside the machine: an instruction (R117: a destination is never Immediate) and
a configuration (the ranges of R8, R240 and R262). Each check is a Bool, so that `decide` runs on it.
-/

namespace Sys2Proof

/-- A mode that a destination parameter may have: Position or Relative (R117). -/
def Mode.destOk : Mode → Bool
  | .position => true
  | .immediate => false
  | .relative => true

/-- R117: the destination of ADD, MUL, IN, LT and EQ is not Immediate. Every other form of the ten instructions is legal (R123). -/
def Instr.wf : Instr → Bool
  | .add _ _ d => d.destOk
  | .mul _ _ d => d.destOk
  | .inp d => d.destOk
  | .out _ => true
  | .jt _ _ => true
  | .jf _ _ => true
  | .lt _ _ d => d.destOk
  | .eq _ _ d => d.destOk
  | .arb _ => true
  | .halt => true

/-- CHAN_CAP is UNBOUNDED or an integer `k >= 2` (R8, R84). -/
def Capacity.wf : Capacity → Bool
  | .unbounded => true
  | .bounded k => decide (2 ≤ k)

/-- Every word of the list is a W-bit Word. -/
def allFit (W : Nat) (ws : List Int) : Bool := ws.all fun w => decide (fits W w)

/-- The arguments of the entry point: N >= 1 (R240) and Words throughout. -/
def Entry.wf (W : Nat) : Entry → Bool
  | .network phases _ drive => !phases.isEmpty && allFit W phases && decide (fits W drive)
  | .runOnce inputs => allFit W inputs

/-- A configuration the spec admits (R8, R240, R261, R262). The width is at least 2, so that the comparison result 1 is a Word
(log 14). -/
def Config.wf (c : Config) : Bool :=
  decide (2 ≤ c.wordBits) && c.chanCap.wf && c.entry.wf c.wordBits && allFit c.wordBits c.program &&
    decide (c.program.length ≤ c.memWords)

end Sys2Proof
end

