-- ==== Sys2Proof/Decode.lean ====
section
/-!
DEFINITION. The decoder (spec R110 to R124), total on any Word and rejecting by name, and after it the encoder and the assembler's
word layout (R125).
-/

namespace Sys2Proof

/-- What the decoder answers (R120): an instruction, or the sub-code of a DecodeFault with the parameter it concerns. -/
inductive Decoded where
  | instr (i : Instr)
  | reject (sub : DecodeSub) (param : Option Nat)
  deriving DecidableEq, Repr

/-- NPARAMS(op), the "params" column of the opcode map (R113, R114); none where `op` is no opcode (R119). -/
def nparams : Nat → Option Nat
  | 1 => some 3
  | 2 => some 3
  | 3 => some 1
  | 4 => some 1
  | 5 => some 2
  | 6 => some 2
  | 7 => some 3
  | 8 => some 3
  | 9 => some 1
  | 99 => some 0
  | _ => none

/-- DEST(op), the "dest" column of the opcode map (R113, R114). -/
def destParam : Nat → Option Nat
  | 1 => some 2
  | 2 => some 2
  | 3 => some 0
  | 7 => some 2
  | 8 => some 2
  | _ => none

/-- `digit_k(n)`: the decimal digit of weight `10^k` (R10). -/
def digit (k n : Nat) : Nat := n / 10 ^ k % 10

/-- The mode a digit spells (R116); none for 3 to 9. -/
def modeOfDigit : Nat → Option Mode
  | 0 => some .position
  | 1 => some .immediate
  | 2 => some .relative
  | _ => none

/-- The checks of R120's loop for parameter `p` of the word `n`: its digit is `digit_{2+p}` (R115), which is a mode (R116), and not
Immediate where the parameter is the destination (R117). `k` goes on with the mode. -/
def withMode (n p : Nat) (isDest : Bool) (k : Mode → Decoded) : Decoded :=
  match modeOfDigit (digit (2 + p) n) with
  | none => .reject .badMode (some p)
  | some m => if isDest && !m.destOk then .reject .immediateDestination (some p) else k m

/-- The last check of R120: under EXTRA_DIGITS = FAULT a word with digits above those of its `params` parameters is rejected (R118). -/
def finish (x : ExtraDigits) (n params : Nat) (i : Instr) : Decoded :=
  match x with
  | .ignore => .instr i
  | .fault => if n / 10 ^ (2 + params) = 0 then .instr i else .reject .extraDigits none

/-- Two sources and a destination. -/
def decode3 (x : ExtraDigits) (n : Nat) (mk : Mode → Mode → Mode → Instr) : Decoded :=
  withMode n 0 false fun a => withMode n 1 false fun b => withMode n 2 true fun d => finish x n 3 (mk a b d)

/-- Two sources. -/
def decode2 (x : ExtraDigits) (n : Nat) (mk : Mode → Mode → Instr) : Decoded :=
  withMode n 0 false fun a => withMode n 1 false fun b => finish x n 2 (mk a b)

/-- One parameter. -/
def decode1 (x : ExtraDigits) (n : Nat) (isDest : Bool) (mk : Mode → Instr) : Decoded :=
  withMode n 0 isDest fun a => finish x n 1 (mk a)

/-- The decoder (R120): the sign, the opcode `w mod 100`, the modes in parameter order, the extra digits. It reads the word alone. -/
def decode (x : ExtraDigits) (w : Int) : Decoded :=
  if w < 0 then .reject .negativeWord none
  else
    match w.toNat % 100 with
    | 1 => decode3 x w.toNat .add
    | 2 => decode3 x w.toNat .mul
    | 3 => decode1 x w.toNat true .inp
    | 4 => decode1 x w.toNat false .out
    | 5 => decode2 x w.toNat .jt
    | 6 => decode2 x w.toNat .jf
    | 7 => decode3 x w.toNat .lt
    | 8 => decode3 x w.toNat .eq
    | 9 => decode1 x w.toNat false .arb
    | 99 => finish x w.toNat 0 .halt
    | _ => .reject .badOpcode none

/-- The opcode of an instruction (R113). -/
def Instr.opcode : Instr → Nat
  | .add _ _ _ => 1
  | .mul _ _ _ => 2
  | .inp _ => 3
  | .out _ => 4
  | .jt _ _ => 5
  | .jf _ _ => 6
  | .lt _ _ _ => 7
  | .eq _ _ _ => 8
  | .arb _ => 9
  | .halt => 99

/-- The number of parameters of an instruction (R113). -/
def Instr.params (i : Instr) : Nat := i.modes.length

/-- The digit that spells a mode (R116). -/
def Mode.digit : Mode → Nat
  | .position => 0
  | .immediate => 1
  | .relative => 2

/-- The mode digits of the parameters, the first at the ones place: `d0 + 10*d1 + 100*d2` (R111). -/
def modeDigits : List Mode → Nat
  | [] => 0
  | m :: ms => m.digit + 10 * modeDigits ms

/-- The instruction word `op + 100*d0 + 1000*d1 + 10000*d2` (R123, R125), its unused digits zero. -/
def encode (i : Instr) : Int := ((i.opcode + 100 * modeDigits i.modes : Nat) : Int)

/-- The words of an instruction with its parameter slots (R110, R125): the instruction word, then the slots in parameter order; none
where the instruction is ill-formed or the number of slots is not its own. -/
def assemble (i : Instr) (slots : List Int) : Option (List Int) :=
  if i.wf && slots.length == i.params then some (encode i :: slots) else none

/-- Word `k` of the bits `bits` laid out with bit 0 the least significant of word 0, W bits a word. -/
def bitsWord (W bits k : Nat) : Int := wrap W ((bits / 2 ^ (W * k) % 2 ^ W : Nat) : Int)

/-- The instruction that the decoder reads from the `nbits` low bits of `w`, at the default parameters (W = 64, IGNORE): the
instruction word is the first 64 bits (log 13). -/
def decodeTableWord (nbits w : Nat) : Option Instr :=
  match decode .ignore (bitsWord 64 (w % 2 ^ nbits) 0) with
  | .instr i => some i
  | .reject _ _ => none

end Sys2Proof
end

