-- ==== Sys2Proof/Machine/Memory.lean ====
section
/-!
DEFINITION. One instance's memory (spec R40, R60, R62 to R64): a word at every address, 0 where nothing else was stored. It is held as
the list of its non-zero words in rising address order, so that equal memories are equal lists (log 4). Memory has no bytes: the
unit of address and of access is the Word (R66).
-/

namespace Sys2Proof.Machine

/-- The non-zero words of a memory, each with its address, addresses strictly rising; an unlisted address reads 0 (R40). -/
abbrev Memory := List (Nat × Int)

/-- The word at address `a` (R62): 0 where the list has none. -/
def Memory.read : Memory → Nat → Int
  | [], _ => 0
  | (k, x) :: rest, a => if k = a then x else Memory.read rest a

/-- The memory with the word `v` at address `a` (R63). Storing 0 removes the entry. -/
def Memory.write : Memory → Nat → Int → Memory
  | [], a, v => if v = 0 then [] else [(a, v)]
  | (k, x) :: rest, a, v =>
    if a < k then (if v = 0 then (k, x) :: rest else (a, v) :: (k, x) :: rest)
    else if a = k then (if v = 0 then rest else (a, v) :: rest)
    else (k, x) :: Memory.write rest a v

/-- The memory that holds the words of a list from address `base` on (R40, R290). -/
def Memory.ofWords (base : Nat) : List Int → Memory
  | [] => []
  | w :: ws => if w = 0 then Memory.ofWords (base + 1) ws else (base, w) :: Memory.ofWords (base + 1) ws

/-- The canonical form from address `lo` on: addresses strictly rising from `lo`, no zero word listed. -/
def Memory.wfFrom (lo : Nat) : Memory → Bool
  | [] => true
  | (k, x) :: rest => decide (lo ≤ k) && decide (x ≠ 0) && Memory.wfFrom (k + 1) rest

/-- The canonical form of a memory. -/
def Memory.wf (m : Memory) : Bool := Memory.wfFrom 0 m

end Sys2Proof.Machine
end

