-- ==== Sys2Proof/Machine/State.lean ====
section
/-!
DEFINITION. The state of the block (spec R30 to R47): the machine instances, the channels, the network's registers, the
parameters of the step (R44, log 3) and the arbiter's choice as plain data (R246, log 5).
-/

namespace Sys2Proof.Machine

/-- The fault kinds that an instance records (R38, R220). -/
inductive FaultKind where
  | decodeFault
  | addressFault
  | channelClosedFault
  | capacityFault
  deriving DecidableEq, Repr

/-- The fault record (R38). -/
structure FaultRec where
  kind : FaultKind
  /-- The sub-code of a DecodeFault, else none. -/
  sub : Option DecodeSub
  /-- `pc` at the faulting instruction. -/
  pc : Int
  /-- The instruction word fetched; none where the fetch itself faulted. -/
  word : Option Int
  /-- `word mod 100` where the word is not negative, else none. -/
  opcode : Option Nat
  /-- The parameter the fault concerns. -/
  param : Option Nat
  /-- The offending address of an AddressFault or CapacityFault. -/
  addr : Option Int
  deriving DecidableEq, Repr

/-- The engine states (R37, R140). -/
inductive EState where
  | running
  | waitingOnInput
  | waitingOnOutput
  | halted
  | faulted
  deriving DecidableEq, Repr

/-- One machine instance (R31, R37, R38, R40, R46): its two registers, its memory, its engine state and its fault record. -/
structure Inst where
  pc : Int
  rb : Int
  mem : Memory
  estate : EState
  fault : Option FaultRec
  deriving DecidableEq, Repr

/-- A channel (R41): the values in it, oldest first, and whether its producer has closed it. -/
structure Channel where
  buf : List Int
  closed : Bool
  deriving DecidableEq, Repr

/-- The states of the network's termination-detection machine (R42, R244). -/
inductive NState where
  | configured
  | running
  | done
  | faulted
  | deadlocked
  deriving DecidableEq, Repr

/-- What `nfault` records beside the instance index (R42): the instance's fault record (R250), or NoOutput (R248). -/
inductive NetCause where
  | recorded (r : FaultRec)
  | noOutput
  deriving DecidableEq, Repr

/-- The state of the block. -/
structure State where
  /-- The parameters of R8; no step changes them (log 3). -/
  cfg : Config
  /-- The network state (R42). -/
  nstate : NState
  /-- The output tap: the last value the terminal instance pushed (R42, R247). -/
  lastOut : Option Int
  /-- The network's fault: the instance and the cause (R42, R250). -/
  nfault : Option (Nat × NetCause)
  /-- The detector's record of every instance's `estate` and `pc` (R251; log 8). -/
  deadlock : Option (List (EState × Int))
  /-- The instances `0 .. N-1` (R42, R271). -/
  insts : List Inst
  /-- The channels: `ch[j]`, the input of instance `j`, at index `j < N`; the `sink` of single-pass mode at index `N` (R241). -/
  chans : List Channel
  /-- The model's own: the instance that the current step runs (log 5). -/
  active : Nat
  /-- The model's own: the arbiter's coming choices, the next one first (R246; log 5). -/
  schedule : List Nat
  /-- The model's own: how many choices the arbiter has taken (log 5). -/
  tick : Nat
  deriving DecidableEq, Repr

/-- Why a step has no next state. -/
inductive Fault where
  /-- Raised by `step` when `nstate` is Done, Faulted or Deadlocked: in a final `nstate` no instance steps and no channel changes
  (R252), so the block has no step. Safe: the spec gives none (log 9). An instance's faults (R224) are next states, not this. -/
  | networkEnded
  deriving DecidableEq, Repr

/-- Why the model gives an instruction no meaning. -/
inductive Refusal where
  /-- Raised by an arm of `exec` whose instruction has no meaning yet. Safe: the run stops. No arm is left so. -/
  | notModelled (mnemonic : String)
  deriving DecidableEq, Repr

/-- The block right after reset (R47, R293): a network built with the default parameters (log 2) and not yet started. -/
def State.reset : State :=
  { cfg := Config.default, nstate := .configured, lastOut := none, nfault := none, deadlock := none,
    insts := [{ pc := 0, rb := 0, mem := [], estate := .running, fault := none }],
    chans := [{ buf := [], closed := false }, { buf := [], closed := false }],
    active := 0, schedule := [], tick := 0 }

end Sys2Proof.Machine
end

