-- ==== Sys2Proof/Machine/Ops.lean ====
section
/-!
DEFINITION. The named operations that the instructions share: the active instance's registers and memory (spec R32 to R35, R62, R63),
the channel primitives Pop, Push and Close (R85 to R87), ending an instruction (R146, R150), taking a fault (R224, R250) and halting
(R215, R248). A fault is final and has no return (R229), so no return stands beside it.
-/

namespace Sys2Proof.Machine

/-- An instance right after instantiation with PROGRAM (R290). -/
def Inst.fresh (program : List Int) : Inst :=
  { pc := 0, rb := 0, mem := Memory.ofWords 0 program, estate := .running, fault := none }

/-- A channel right after reset (R293): empty and open. -/
def Channel.fresh : Channel := { buf := [], closed := false }

/-- The engine states in which an engine never steps again (R140). -/
def EState.final : EState → Bool
  | .halted => true
  | .faulted => true
  | .running => false
  | .waitingOnInput => false
  | .waitingOnOutput => false

/-! ### One instance, one channel -/

/-- The instance with another memory. -/
def Inst.withMem (m : Inst) (mem : Memory) : Inst := { m with mem := mem }

/-- The instance with another relative base. -/
def Inst.withRb (m : Inst) (v : Int) : Inst := { m with rb := v }

/-- The instance with another engine state. -/
def Inst.withEState (m : Inst) (e : EState) : Inst := { m with estate := e }

/-- The instance at the end of a completed instruction: `pc <- v`, Running (R143). -/
def Inst.completeAt (m : Inst) (v : Int) : Inst := { m with pc := v, estate := .running }

/-- The instance Faulted, with its record (R224). -/
def Inst.faultedBy (m : Inst) (r : FaultRec) : Inst := { m with estate := .faulted, fault := some r }

/-- The channel with other values in it. -/
def Channel.withBuf (c : Channel) (buf : List Int) : Channel := { c with buf := buf }

/-- The channel closed (R87). -/
def Channel.shut (c : Channel) : Channel := { c with closed := true }

/-! ### The instances -/

/-- Instance `i`. A network has the instances `0 .. N-1` (R271); no reachable state asks for another (log 11). -/
def State.inst (s : State) (i : Nat) : Inst := s.insts.getD i (Inst.fresh [])

/-- The instance that the current step runs (R246). -/
def State.me (s : State) : Inst := s.inst s.active

/-- The active instance becomes `m`; no other instance changes (R46). -/
def State.setMe (s : State) (m : Inst) : State := { s with insts := s.insts.set s.active m }

/-- `wrap_W` at the state's word width (R9). -/
def State.wrap (s : State) (x : Int) : Int := Sys2Proof.wrap s.cfg.wordBits x

/-- `MemRead(a, 1)` of instance `i` (R62): 0 at or above MEM_WORDS. -/
def State.readAt (s : State) (i a : Nat) : Int :=
  if s.cfg.memWords ≤ a then 0 else Memory.read (s.inst i).mem a

/-- `MemRead(a, 1)` of the active instance (R62). -/
def State.memRead (s : State) (a : Nat) : Int := s.readAt s.active a

/-- `MemWrite(a, 1, v)` of the active instance (R63). -/
def State.memWrite (s : State) (a : Nat) (v : Int) : State :=
  s.setMe (s.me.withMem (Memory.write s.me.mem a v))

/-- `rb <- v` (R35). -/
def State.setRb (s : State) (v : Int) : State := s.setMe (s.me.withRb v)

/-! ### Ending an instruction -/

/-- The instruction completes with `pc <- v`; the engine is Running (R143). -/
def State.goTo (s : State) (v : Int) : State := s.setMe (s.me.completeAt v)

/-- The instruction completes and `pc` advances past its `n` slots: `pc <- wrap_W(pc + 1 + n)` (R33, R146). -/
def State.advance (s : State) (n : Nat) : State := s.goTo (s.wrap (s.me.pc + 1 + (n : Int)))

/-- `wait Input` and `wait Output`: the engine state changes and nothing else (R150). -/
def State.wait (s : State) (e : EState) : State := s.setMe (s.me.withEState e)

/-! ### Channels -/

/-- Channel `j` (R241). No reachable state asks for a channel that is not there (log 11). -/
def State.chan (s : State) (j : Nat) : Channel := s.chans.getD j Channel.fresh

/-- Channel `j` becomes `c`; no other channel changes. -/
def State.setChan (s : State) (j : Nat) (c : Channel) : State := { s with chans := s.chans.set j c }

/-- The active instance's output channel `out(i)` (R241). -/
def State.outIndex (s : State) : Nat := s.cfg.outChannel s.active

/-- `Pop(ch)`'s answers (R85). -/
inductive PopResult where
  | value (v : Int) (s : State)
  | endOfStream
  | empty

/-- `Pop(ch[j])` (R85): the oldest value while there is one, closed or not; then end-of-stream if the channel is closed. -/
def State.pop (s : State) (j : Nat) : PopResult :=
  match (s.chan j).buf with
  | v :: rest => .value v (s.setChan j ((s.chan j).withBuf rest))
  | [] => if (s.chan j).closed then .endOfStream else .empty

/-- The consumer of channel `j` is an instance that has stopped (R86, D14). Channel N, the sink, has no instance as its consumer. -/
def State.consumerStopped (s : State) (j : Nat) : Bool :=
  decide (j < s.cfg.instances) && (s.inst j).estate.final

/-- Channel `j` is full: its consumer is an instance and it holds CHAN_CAP values or more (R84, R86). -/
def State.full (s : State) (j : Nat) : Bool :=
  match s.cfg.chanCap with
  | .unbounded => false
  | .bounded k => decide (j < s.cfg.instances) && decide (k ≤ (s.chan j).buf.length)

/-- `Push` on channel `j` would be `Accepted` (R86, R142). -/
def State.accepts (s : State) (j : Nat) : Bool := s.consumerStopped j || !s.full j

/-- `Push(ch, v)`'s answers (R86). -/
inductive PushResult where
  | accepted (s : State)
  | full

/-- `Push(ch[j], v)` (R86): dropped where the consumer has stopped, refused where the channel is full, else appended. -/
def State.push (s : State) (j : Nat) (v : Int) : PushResult :=
  if s.consumerStopped j then .accepted s
  else if s.full j then .full
  else .accepted (s.setChan j ((s.chan j).withBuf ((s.chan j).buf ++ [v])))

/-- `Close(ch[j])` (R87). -/
def State.close (s : State) (j : Nat) : State := s.setChan j (s.chan j).shut

/-- The output tap (R247): the terminal instance's accepted value. -/
def State.tap (s : State) (v : Int) : State :=
  if s.active = s.cfg.terminal then { s with lastOut := some v } else s

/-! ### Stopping -/

/-- What the check that fails knows of its fault (R224's `info`). -/
structure FaultInfo where
  kind : FaultKind
  sub : Option DecodeSub
  param : Option Nat
  addr : Option Int
  deriving DecidableEq, Repr

/-- The instruction word of the active instance: none where `pc` is negative, so that nothing is fetched (R144). -/
def State.instrWord (s : State) : Option Int :=
  if s.me.pc < 0 then none else some (s.memRead s.me.pc.toNat)

/-- The opcode a fault record gives for an instruction word: `w mod 100` of a word that is not negative (R38). -/
def opcodeOf : Option Int → Option Nat
  | none => none
  | some w => if w < 0 then none else some (w.toNat % 100)

/-- The fault record (R38): what the check knows, with the `pc`, the word and the opcode of the step (R143). -/
def State.faultRec (s : State) (f : FaultInfo) : FaultRec :=
  { kind := f.kind, sub := f.sub, pc := s.me.pc, word := s.instrWord, opcode := opcodeOf s.instrWord,
    param := f.param, addr := f.addr }

/-- The network's reaction to a fault of the active instance, in the same step (R250). -/
def State.endByFault (s : State) (r : FaultRec) : State :=
  { s with nstate := .faulted, nfault := some (s.active, .recorded r) }

/-- Taking a fault, `raise F(info)` (R224): `estate` and `fault` of the active instance, its output channel closed (R157), and the network
ended (R250). Memory, `pc`, `rb` and the channels' values stay (R148). -/
def State.raise (s : State) (f : FaultInfo) : State :=
  ((s.setMe (s.me.faultedBy (s.faultRec f))).close s.outIndex).endByFault (s.faultRec f)

/-- The network's reaction to a halt of the active instance (R248, R249): the terminal instance ends the network, Done if a value was
ever pushed, NoOutput if not. A `runOnce` ends well in both cases (R261, D35; log 7). -/
def State.endByHalt (s : State) : State :=
  if s.active = s.cfg.terminal then
    if s.lastOut.isSome || s.cfg.isRunOnce then { s with nstate := .done }
    else { s with nstate := .faulted, nfault := some (s.active, .noOutput) }
  else s

/-- Halting (R215): `estate`, the output channel closed (R157), and the network's reaction. `pc` stays at the HALT word. -/
def State.halt (s : State) : State :=
  ((s.setMe (s.me.withEState .halted)).close s.outIndex).endByHalt

end Sys2Proof.Machine
end

