-- ==== Sys2Proof/Machine/Operands.lean ====
section
/-!
DEFINITION. The addressing resolver and the operand reads (spec R71 to R80): the effective address of each parameter in parameter order,
with its checks, and then the values of the source parameters. All of it reads the state as it stood at the start of the step (R147).
-/

namespace Sys2Proof.Machine

/-- An AddressFault of parameter `p` at the negative address `a` (R76, R222). -/
def addressFault (p : Nat) (a : Int) : FaultInfo :=
  { kind := .addressFault, sub := none, param := some p, addr := some a }

/-- A CapacityFault of the destination parameter `p` at the address `a` (R78, R225). -/
def capacityFault (p : Nat) (a : Int) : FaultInfo :=
  { kind := .capacityFault, sub := none, param := some p, addr := some a }

/-- The slot address of parameter `p`, `wrap_W(pc + 1 + p)` (R72). -/
def State.slot (s : State) (p : Nat) : Int := s.wrap (s.me.pc + 1 + (p : Int))

/-- The effective address that mode `m` makes of the slot at address `a`, before its checks (R73 to R75). -/
def State.effective (s : State) (m : Mode) (a : Nat) : Int :=
  match m with
  | .position => s.memRead a
  | .immediate => (a : Int)
  | .relative => s.wrap (s.me.rb + s.memRead a)

/-- `Resolve(p, d, isDest)` (R71): the effective address of parameter `p`, or the fault of the first check that fails: a negative slot
(R72), a negative effective address (R76), a destination at or above MEM_WORDS (R78). -/
def State.resolve (s : State) (p : Nat) (m : Mode) (isDest : Bool) : Except FaultInfo Nat :=
  if s.slot p < 0 then .error (addressFault p (s.slot p))
  else
    let ea := s.effective m (s.slot p).toNat
    if ea < 0 then .error (addressFault p ea)
    else if isDest && decide (s.cfg.memWords ≤ ea.toNat) then .error (capacityFault p ea)
    else .ok ea.toNat

/-- One source operand: its value (R77). -/
def State.src1 (s : State) (a : Mode) : Except FaultInfo Int :=
  match s.resolve 0 a false with
  | .error f => .error f
  | .ok ea => .ok (s.memRead ea)

/-- Two source operands, both addresses resolved before either value is read (R80). -/
def State.src2 (s : State) (a b : Mode) : Except FaultInfo (Int × Int) :=
  match s.resolve 0 a false with
  | .error f => .error f
  | .ok ea0 =>
    match s.resolve 1 b false with
    | .error f => .error f
    | .ok ea1 => .ok (s.memRead ea0, s.memRead ea1)

/-- Two source operands and the address of the destination, parameter 2 (R78, R80). -/
def State.src2dst (s : State) (a b d : Mode) : Except FaultInfo (Int × Int × Nat) :=
  match s.resolve 0 a false with
  | .error f => .error f
  | .ok ea0 =>
    match s.resolve 1 b false with
    | .error f => .error f
    | .ok ea1 =>
      match s.resolve 2 d true with
      | .error f => .error f
      | .ok ea2 => .ok (s.memRead ea0, s.memRead ea1, ea2)

/-- An instruction that computes one word from two sources, stores it at its destination and advances past its three slots (R170,
R171, R200, R201). The result is computed from the values read before the store (R156). -/
def State.compute (s : State) (a b d : Mode) (f : Int → Int → Int) : Host.Outcome State Fault Refusal :=
  match s.src2dst a b d with
  | .error e => .next (s.raise e)
  | .ok (x, y, ea) => .next ((s.memWrite ea (f x y)).advance 3)

end Sys2Proof.Machine
end

