-- ==== Sys2Proof/Machine/Arithmetic.lean ====
section
/-! DEFINITION. ADD and MUL (spec R170 to R172). -/

namespace Sys2Proof.Machine

/-- ADD (R170): the destination gets `wrap_W(a + b)`. -/
def execAdd (a b d : Mode) (s : State) : Host.Outcome State Fault Refusal :=
  s.compute a b d fun x y => s.wrap (x + y)

/-- MUL (R171): the destination gets `wrap_W(a * b)`. -/
def execMul (a b d : Mode) (s : State) : Host.Outcome State Fault Refusal :=
  s.compute a b d fun x y => s.wrap (x * y)

end Sys2Proof.Machine
end

