-- ==== Sys2Proof/Machine/ChannelIo.lean ====
section
/-! DEFINITION. IN and OUT (spec R180, R181), the machine's only synchronising instructions (R92). -/

namespace Sys2Proof.Machine

/-- The ChannelClosedFault of an IN (R180, R223). -/
def channelClosedFault : FaultInfo :=
  { kind := .channelClosedFault, sub := none, param := some 0, addr := none }

/-- IN (R180): the address checks, then Pop of the active instance's input channel: wait, fault, or store the value. -/
def execIn (d : Mode) (s : State) : Host.Outcome State Fault Refusal :=
  match s.resolve 0 d true with
  | .error f => .next (s.raise f)
  | .ok ea =>
    match s.pop s.active with
    | .empty => .next (s.wait .waitingOnInput)
    | .endOfStream => .next (s.raise channelClosedFault)
    | .value v t => .next ((t.memWrite ea v).advance 1)

/-- OUT (R181): the operand, then Push on the active instance's output channel: wait, or go on and, at the terminal instance, tap. -/
def execOut (a : Mode) (s : State) : Host.Outcome State Fault Refusal :=
  match s.src1 a with
  | .error f => .next (s.raise f)
  | .ok v =>
    match s.push s.outIndex v with
    | .full => .next (s.wait .waitingOnOutput)
    | .accepted t => .next ((t.advance 1).tap v)

end Sys2Proof.Machine
end

