-- ==== Sys2Proof/Machine/Flags.lean ====
section
/-!
DEFINITION. The machine has no flags (spec R36). What other machines keep in flags is here: the truth word that LT and EQ store (R200,
R201), and the condition that JT and JF test in an operand value (R190, R191).
-/

namespace Sys2Proof.Machine

/-- The Word 1 or the Word 0 (R36). -/
def truthWord (b : Bool) : Int := if b then 1 else 0

/-- `a < b` of Words, signed (R9, R200). -/
def ltWord (a b : Int) : Int := truthWord (decide (a < b))

/-- `a == b` of whole Words (R201). -/
def eqWord (a b : Int) : Int := truthWord (decide (a = b))

/-- A jump condition is true when the Word is not 0, negative Words included (R190). -/
def nonZero (a : Int) : Bool := decide (a ≠ 0)

end Sys2Proof.Machine
end

