-- ==== Sys2Proof/Machine/Compare.lean ====
section
/-! DEFINITION. LT and EQ (spec R200, R201). -/

namespace Sys2Proof.Machine

/-- LT (R200): the destination gets 1 if `a < b`, signed, else 0. -/
def execLt (a b d : Mode) (s : State) : Host.Outcome State Fault Refusal :=
  s.compute a b d ltWord

/-- EQ (R201): the destination gets 1 if `a = b`, else 0. -/
def execEq (a b d : Mode) (s : State) : Host.Outcome State Fault Refusal :=
  s.compute a b d eqWord

end Sys2Proof.Machine
end

