-- ==== Sys2Proof/Machine/Halt.lean ====
section
/-! DEFINITION. HALT (spec R215). -/

namespace Sys2Proof.Machine

/-- HALT (R215): the engine halts, its output channel is closed, and at the terminal instance the network ends (R248). -/
def execHalt (s : State) : Host.Outcome State Fault Refusal := .next s.halt

end Sys2Proof.Machine
end

