-- ==== Sys2Proof/Machine/Jump.lean ====
section
/-! DEFINITION. JT and JF (spec R190 to R193). A target is not checked when the jump is taken (R192). -/

namespace Sys2Proof.Machine

/-- JT (R190): `pc <- b` if `a` is not 0, else past the two slots. -/
def execJt (a b : Mode) (s : State) : Host.Outcome State Fault Refusal :=
  match s.src2 a b with
  | .error f => .next (s.raise f)
  | .ok (c, target) => .next (if nonZero c then s.goTo target else s.advance 2)

/-- JF (R191): `pc <- b` if `a` is 0, else past the two slots. -/
def execJf (a b : Mode) (s : State) : Host.Outcome State Fault Refusal :=
  match s.src2 a b with
  | .error f => .next (s.raise f)
  | .ok (c, target) => .next (if nonZero c then s.advance 2 else s.goTo target)

end Sys2Proof.Machine
end

