-- ==== Sys2Proof/Machine/RelBase.lean ====
section
/-! DEFINITION. ARB (spec R210). -/

namespace Sys2Proof.Machine

/-- ARB (R210): `rb <- wrap_W(rb + a)`, the operand read at the old `rb`. -/
def execArb (a : Mode) (s : State) : Host.Outcome State Fault Refusal :=
  match s.src1 a with
  | .error f => .next (s.raise f)
  | .ok x => .next ((s.setRb (s.wrap (s.me.rb + x))).advance 1)

end Sys2Proof.Machine
end

