-- ==== Sys2Proof/Machine/Network.lean ====
section
/-!
DEFINITION. The feedback network around the instances (spec R240 to R256): building and starting it, which instances have an enabled step,
the arbiter's choice among them, and the deadlock detector.
-/

namespace Sys2Proof.Machine

/-- A network right after it is built (R293, R294 steps 2 and 3): Configured, its channels empty and open, its instances at their reset
values (R47, R291; log 16). -/
def State.build (c : Config) : State :=
  { cfg := c, nstate := .configured, lastOut := none, nfault := none, deadlock := none,
    insts := List.replicate c.instances (Inst.fresh c.program),
    chans := List.replicate c.channels Channel.fresh, active := 0, schedule := [], tick := 0 }

/-- The input channels after seeding (R243): `ch[j] = [PHASES[j]]`, DRIVE_VALUE appended to `ch[0]`, and `ch[0]` closed in single pass
(R245). -/
def seedPhases (feedback : Bool) (drive : Int) : List Int → List Channel
  | [] => []
  | p :: ps => { buf := [p, drive], closed := !feedback } :: ps.map fun q => { buf := [q], closed := false }

/-- All channels right after the start step (R241, R243, R245, R261): the seeded inputs, and in single pass the empty, open sink. -/
def seeded (c : Config) : List Channel :=
  match c.entry with
  | .network phases feedback drive => seedPhases feedback drive phases ++ if feedback then [] else [Channel.fresh]
  | .runOnce inputs => [{ buf := inputs, closed := true }, Channel.fresh]

/-- The start step (R245): every instance instantiated with its own copy of PROGRAM (R263), the channels seeded, `nstate` Running. -/
def State.start (s : State) : State :=
  { s with
    nstate := .running
    insts := List.replicate s.cfg.instances (Inst.fresh s.cfg.program)
    chans := seeded s.cfg }

/-- Instance `i` has an enabled step, its network Running (R142 (b)). -/
def State.canStep (s : State) (i : Nat) : Bool :=
  match (s.inst i).estate with
  | .running => true
  | .waitingOnInput => !(s.chan i).buf.isEmpty || (s.chan i).closed
  | .waitingOnOutput => s.accepts (s.cfg.outChannel i)
  | .halted => false
  | .faulted => false

/-- The instances with an enabled step, in index order. -/
def State.enabled (s : State) : List Nat := (List.range s.insts.length).filter s.canStep

/-- The arbiter's next choice (R246): the head of `schedule`, and where that is empty a free value. -/
def State.choice (s : State) : Nat := s.schedule.headD (Config.freeChoice s.tick)

/-- The instance that steps, among the enabled ones: the only one; else the one the choice names; else, where the choice names no
enabled instance, the first. Every enabled instance is some choice's (log 5). -/
def pick : List Nat → Nat → Nat
  | [i], _ => i
  | enabled, c => if c ∈ enabled then c else enabled.headD 0

/-- Instance `i` is granted the step; the choice is used up. -/
def State.grant (s : State) (i : Nat) : State :=
  { s with active := i, schedule := s.schedule.tail, tick := s.tick + 1 }

/-- The detector's step (R251): Deadlocked, with every instance's `estate` and `pc` on record. -/
def State.detectDeadlock (s : State) : State :=
  { s with nstate := .deadlocked, deadlock := some (s.insts.map fun m => (m.estate, m.pc)) }

end Sys2Proof.Machine
end

