-- ==== Sys2Proof/Machine/Engine.lean ====
section
/-!
DEFINITION. The fetch-decode-execute engine (spec R140 to R157): fetching and decoding the active instance's instruction, running it, and
the step of a running network. Also where a word is laid so that the next step fetches it.
-/

namespace Sys2Proof.Machine

/-- The AddressFault of a fetch at a negative `pc` (R144). -/
def fetchFault (pc : Int) : FaultInfo :=
  { kind := .addressFault, sub := none, param := none, addr := some pc }

/-- A DecodeFault (R120, R221). -/
def decodeFault (sub : DecodeSub) (param : Option Nat) : FaultInfo :=
  { kind := .decodeFault, sub := some sub, param := param, addr := none }

/-- Fetch and decode (R143, R144): the word in `M[pc]` at this moment, never a kept one (R121). -/
def State.fetch (s : State) : Except FaultInfo Instr :=
  if s.me.pc < 0 then .error (fetchFault s.me.pc)
  else
    match decode s.cfg.extraDigits (s.memRead s.me.pc.toNat) with
    | .instr i => .ok i
    | .reject sub param => .error (decodeFault sub param)

/-- `Step()` of the active instance (R143). A waiting engine runs the whole of it again (R151). -/
def State.runActive (s : State) : Host.Outcome State Fault Refusal :=
  match s.fetch with
  | .error f => .next (s.raise f)
  | .ok i => exec i s

/-- One step of a Running network (R246, R251): a step of the chosen enabled instance, or the detector's step where there is none. -/
def State.networkStep (s : State) : Host.Outcome State Fault Refusal :=
  match s.enabled with
  | [] => .next s.detectDeadlock
  | i :: is => (s.grant (pick (i :: is) s.choice)).runActive

/-- The memory with the words of `bits` (W bits a word, the first at `base`) at the four addresses from `base` on that exist: four words
are the longest instruction (R110). -/
def placeBits (W memWords bits base : Nat) (m : Memory) : Memory :=
  [0, 1, 2, 3].foldl
    (fun m k => if base + k < memWords then Memory.write m (base + k) (bitsWord W bits k) else m) m

/-- Instance `m` about to fetch the words of `bits`: they stand at its `pc` (at 0, if its `pc` is no address of a memory word), and it is
Running. -/
def Inst.withFetchBits (c : Config) (bits : Nat) (m : Inst) : Inst :=
  let pc : Int := if m.pc < 0 ∨ (c.memWords : Int) ≤ m.pc then 0 else m.pc
  { m with pc := pc, estate := .running, mem := placeBits c.wordBits c.memWords bits pc.toNat m.mem }

/-- The network Running, so that its next step is an instance's: a Configured one is started (R245; log 12). -/
def State.running (s : State) : State :=
  if s.nstate = .configured then s.start else { s with nstate := .running }

/-- The state whose next step fetches the words of `bits`: the network Running, the instance the arbiter chooses next fixed, the words at its
`pc` (log 12). -/
def State.withFetchBits (s : State) (bits : Nat) : State :=
  let t := s.running
  let i := if t.active < t.insts.length then t.active else 0
  { t with
    active := i
    schedule := i :: t.schedule
    insts := t.insts.set i (Inst.withFetchBits t.cfg bits (t.inst i)) }

end Sys2Proof.Machine
end

