-- ==== Sys2Proof/Machine/Step.lean ====
section
/-! DEFINITION. One step of the block, and the state whose next step runs a given instruction word. -/

namespace Sys2Proof.Machine

/-- One step of the block, by `nstate` (spec R244): the start step (R245), a step of a Running network (R246, R251), and none in a final
`nstate` (R252). -/
def step (s : State) : Host.Outcome State Fault Refusal :=
  match s.nstate with
  | .configured => .next s.start
  | .running => s.networkStep
  | .done => .fault .networkEnded
  | .faulted => .fault .networkEnded
  | .deadlocked => .fault .networkEnded

/-- The state whose next step fetches and runs the instruction whose bits are the `nbits` low bits of `w` (log 12, log 13). -/
def State.withFetchWord (s : State) (nbits w : Nat) : State := s.withFetchBits (w % 2 ^ nbits)

end Sys2Proof.Machine
end

