-- ==== Sys2Proof/Machine/HostPort.lean ====
section
/-!
DEFINITION. The host's interfaces (spec R260 to R264), beside the step: loading a program, building and running a network, `runOnce`, stepping
and running one engine, reading the status and the sink; and the numeric codes of the reports (R220, R221). None of them is a step of the
block, and none changes what `step` does.
-/

namespace Sys2Proof.Machine

/-! ### Codes (R220, R221) -/

/-- The code of an instance's fault kind (R220). -/
def FaultKind.code : FaultKind → Nat
  | .decodeFault => 2
  | .addressFault => 3
  | .channelClosedFault => 4
  | .capacityFault => 5

/-- The sub-code of a DecodeFault (R221). -/
def decodeSubCode : DecodeSub → Nat
  | .badOpcode => 1
  | .negativeWord => 2
  | .badMode => 3
  | .immediateDestination => 4
  | .extraDigits => 5

/-- The code of what ended the network in Faulted (R220): the instance's fault, or NoOutput. -/
def NetCause.code : NetCause → Nat
  | .recorded r => r.kind.code
  | .noOutput => 6

/-- The code of a ParseFault (R220). -/
def parseFaultCode : Nat := 1

/-- The code of a Deadlock (R220). -/
def deadlockCode : Nat := 7

/-! ### Load (R262) -/

/-- What `load` answers: a ParseFault with the index of the token outside the Word range (R220, R226, D26), a refusal of a program longer
than MEM_WORDS, or the configuration with PROGRAM set. -/
inductive LoadResult where
  | parseFault (token : Nat)
  | tooLong
  | accepted (c : Config)
  deriving DecidableEq, Repr

/-- The index, counted from `k`, of the first token that is no W-bit Word (log 26). -/
def firstUnfit (W k : Nat) : List Int → Option Nat
  | [] => none
  | x :: xs => if fits W x then firstUnfit W (k + 1) xs else some k

/-- `load(words)` (R262): the only way to set PROGRAM. The tokens are the integers the host read from the program text; the text itself is
outside the block (R7). The range is checked before the length (DESIGN CHOICE, log 17), and of several tokens outside it the first is the one
recorded, its index counted from 0 (DESIGN CHOICE, log 26). -/
def loadProgram (c : Config) (tokens : List Int) : LoadResult :=
  match firstUnfit c.wordBits 0 tokens with
  | some k => .parseFault k
  | none => if c.memWords < tokens.length then .tooLong else .accepted { c with program := tokens }

/-! ### Runs (R240, R253, R261) -/

/-- The result of a network run (R253). -/
inductive NetResult where
  | ok (v : Int)
  | fault (i : Nat) (cause : NetCause)
  | deadlock (states : List (EState × Int))
  deriving DecidableEq, Repr

/-- The result of the network once it has ended, and none before (R253, R264). -/
def State.result (s : State) : Option NetResult :=
  match s.nstate with
  | .configured => none
  | .running => none
  | .done => s.lastOut.map .ok
  | .faulted => s.nfault.map fun f => .fault f.1 f.2
  | .deadlocked => s.deadlock.map .deadlock

/-- The result of `runOnce` (R261). -/
inductive RunOnceResult where
  | ok (outputs : List Int)
  | fault (r : FaultRec)
  deriving DecidableEq, Repr

/-- The result of a `runOnce` once it has ended: the contents of the sink in order when instance 0 halted, its fault when it faulted (R261).
That a halt without output is Done is log 7; values that the host has read from the sink before are no part of it (log 18, log 25). -/
def State.runOnceResult (s : State) : Option RunOnceResult :=
  match s.nstate with
  | .done => some (.ok (s.chan s.cfg.instances).buf)
  | .faulted =>
    match s.nfault with
    | some (_, .recorded r) => some (.fault r)
    | some (_, .noOutput) => none
    | none => none
  | .configured => none
  | .running => none
  | .deadlocked => none

/-- At most `k` steps, stopping where there is none. A run of the block has no step limit (R255): `k` is the reader's. -/
def State.runFor : Nat → State → State
  | 0, s => s
  | k + 1, s =>
    match step s with
    | .next t => State.runFor k t
    | .fault _ => s
    | .refused _ => s

/-- `buildNetwork(program, phaseSettings, feedbackEnabled)` (R240) with DRIVE_VALUE (R8): the network, Configured; none where the program
does not load. `c` gives W, MEM_WORDS, CHAN_CAP and EXTRA_DIGITS. A configuration that R8 and R240 do not admit is built as it stands:
`Config.wf` is not asked (DESIGN CHOICE, log 24). -/
def buildNetwork (c : Config) (program : List Int) (phases : List Int) (feedback : Bool) (drive : Int) : Option State :=
  match loadProgram { c with entry := .network phases feedback drive } program with
  | .accepted d => some (State.build d)
  | .parseFault _ => none
  | .tooLong => none

/-- `runOnce(program, inputs)` (R261): the one-instance network, Configured; none where the program does not load. As in `buildNetwork`,
`Config.wf` is not asked (DESIGN CHOICE, log 24). -/
def runOnce (c : Config) (program : List Int) (inputs : List Int) : Option State :=
  match loadProgram { c with entry := .runOnce inputs } program with
  | .accepted d => some (State.build d)
  | .parseFault _ => none
  | .tooLong => none

/-! ### One engine (R141, R153) -/

/-- `step()` of engine `i`: its step and its new `estate`; none where it has no enabled step (R142). The host takes the arbiter's place for
this step (log 20). -/
def State.engineStep (s : State) (i : Nat) : Option (EState × State) :=
  if s.nstate = .running ∧ i ∈ s.enabled then
    match ({ s with schedule := i :: s.schedule } : State).grant i |>.runActive with
    | .next t => some ((t.inst i).estate, t)
    | .fault _ => none
    | .refused _ => none
  else none

/-- `run()` of engine `i` (R153): steps while it has one, at most `k` of them. -/
def State.engineRun : Nat → Nat → State → State
  | 0, _, s => s
  | k + 1, i, s =>
    match s.engineStep i with
    | some (_, t) => State.engineRun k i t
    | none => s

/-! ### Reading (R260) -/

/-- What the host's status read gives of one instance. -/
structure InstStatus where
  estate : EState
  fault : Option FaultRec
  pc : Int
  rb : Int
  deriving DecidableEq, Repr

/-- What the host's status read gives. -/
structure Status where
  insts : List InstStatus
  nstate : NState
  nfault : Option (Nat × NetCause)
  lastOut : Option Int
  deriving DecidableEq, Repr

/-- The status read: at any time, with no effect (R260). -/
def State.status (s : State) : Status :=
  { insts := s.insts.map fun m => { estate := m.estate, fault := m.fault, pc := m.pc, rb := m.rb }
    nstate := s.nstate, nfault := s.nfault, lastOut := s.lastOut }

/-- One `sink` read (R260): the oldest value not yet read, then end-of-stream once the sink is closed (R85, R223; log 18). Single pass
only: with FEEDBACK there is no sink (R241) and the answer is `empty` (log 11). It takes the value out after the network has ended too, so that a
later `runOnceResult` is shorter (DESIGN CHOICE, log 25). -/
def State.sinkRead (s : State) : PopResult := s.pop s.cfg.instances

end Sys2Proof.Machine
end

