-- ==== Sys2Proof/Safety.lean ====
section
/-!
DEFINITION. The terms that statements use: what a well-shaped state is, what every reachable state satisfies, and what an instruction
leaves alone.
-/

namespace Sys2Proof.Machine

/-- The configuration is one the spec admits (R8) and the state has its instances and channels (R241). -/
structure State.Shape (s : State) : Prop where
  cfgOk : s.cfg.wf = true
  instCount : s.insts.length = s.cfg.instances
  chanCount : s.chans.length = s.cfg.channels

/-- An instance's registers and memory hold W-bit Words (R31, R40), and its memory is in canonical form with no word at or above
MEM_WORDS (R60). -/
structure Inst.WordsOk (c : Config) (m : Inst) : Prop where
  pc : fits c.wordBits m.pc
  rb : fits c.wordBits m.rb
  form : m.mem.wf = true
  cells : ∀ e ∈ m.mem, e.1 < c.memWords ∧ fits c.wordBits e.2

/-- Every word of the state is a W-bit Word, and every memory is in canonical form. -/
structure State.WordsOk (s : State) : Prop where
  insts : ∀ m ∈ s.insts, m.WordsOk s.cfg
  chans : ∀ c ∈ s.chans, ∀ v ∈ c.buf, fits s.cfg.wordBits v
  lastOut : ∀ v ∈ s.lastOut, fits s.cfg.wordBits v

/-- The status registers of the block agree with one another. -/
structure State.Control (s : State) : Prop where
  /-- An instance has a fault record exactly when it is Faulted (R38, R224). -/
  faultRecord : ∀ m ∈ s.insts, (m.fault.isSome = true ↔ m.estate = .faulted)
  /-- An output channel is closed exactly when its producer has stopped (R87, R157). -/
  closedByProducer : ∀ i, i < s.cfg.instances →
    ((s.chan (s.cfg.outChannel i)).closed = true ↔ (s.inst i).estate.final = true)
  /-- In single pass `ch[0]` is closed from the start step on (R245). -/
  closedAtStart : s.cfg.feedback = false → ((s.chan 0).closed = true ↔ s.nstate ≠ .configured)
  /-- `WaitingOnOutput` is entered only with a bounded CHAN_CAP (R37). -/
  waitsBounded : ∀ m ∈ s.insts, m.estate = .waitingOnOutput → s.cfg.chanCap ≠ .unbounded
  /-- A bounded channel of an instance never holds more than CHAN_CAP values (R84); the inputs of a `runOnce` are not subject to it (R261). -/
  capacity : ∀ k j, s.cfg.chanCap = .bounded k → s.cfg.isRunOnce = false → j < s.cfg.instances →
    (s.chan j).buf.length ≤ k
  /-- Before the start step nothing has run (R47, R293). -/
  configured : s.nstate = .configured →
    (∀ m ∈ s.insts, m.estate = .running) ∧ s.lastOut = none ∧ s.nfault = none ∧ s.deadlock = none
  /-- While the network runs no instance is Faulted and the terminal instance is not Halted (R248, R250). -/
  running : s.nstate = .running →
    (∀ m ∈ s.insts, m.estate ≠ .faulted) ∧ (s.inst s.cfg.terminal).estate ≠ .halted ∧
      s.nfault = none ∧ s.deadlock = none
  /-- Done: the terminal instance halted, with a value pushed (R248) or as a `runOnce` (R261, the model's reading, log 7). -/
  done : s.nstate = .done →
    (s.inst s.cfg.terminal).estate = .halted ∧ (s.lastOut.isSome = true ∨ s.cfg.isRunOnce = true) ∧
      s.nfault = none ∧ s.deadlock = none
  /-- Faulted: `nfault` names an instance with its own record, or the terminal instance that halted without output (R248, R250);
that the latter is no `runOnce` is the model's reading of R261 (log 7). -/
  faulted : s.nstate = .faulted →
    s.deadlock = none ∧
      ((∃ i r, s.nfault = some (i, .recorded r) ∧ i < s.cfg.instances ∧ (s.inst i).fault = some r) ∨
        (s.nfault = some (s.cfg.terminal, .noOutput) ∧ (s.inst s.cfg.terminal).estate = .halted ∧
          s.lastOut = none ∧ s.cfg.isRunOnce = false))
  /-- Deadlocked: the record is the states as they stand, and no instance can step (R251). -/
  deadlocked : s.nstate = .deadlocked →
    s.nfault = none ∧ s.deadlock = some (s.insts.map fun m => (m.estate, m.pc)) ∧ s.enabled = []

/-- What every instruction leaves alone, whatever it does: the parameters, the detector's record, the arbiter's data, and every instance but
the active one (R46, R242). -/
structure State.Elsewhere (s t : State) : Prop where
  cfg : t.cfg = s.cfg
  deadlock : t.deadlock = s.deadlock
  active : t.active = s.active
  schedule : t.schedule = s.schedule
  tick : t.tick = s.tick
  count : t.insts.length = s.insts.length
  others : ∀ j, j ≠ s.active → t.inst j = s.inst j

/-- What an instruction other than IN, OUT and HALT leaves alone when it completes: all of `Elsewhere`, the network's registers and every
channel, and of the active instance its fault record. -/
structure State.OnlyActive (s t : State) : Prop where
  elsewhere : s.Elsewhere t
  nstate : t.nstate = s.nstate
  lastOut : t.lastOut = s.lastOut
  nfault : t.nfault = s.nfault
  chans : t.chans = s.chans
  fault : t.me.fault = s.me.fault

/-- Every word of the active instance's memory reads as before. -/
def State.SameMemory (s t : State) : Prop := ∀ a, t.memRead a = s.memRead a

/-- Every word of the active instance's memory but the one at `ea` reads as before. -/
def State.SameMemoryBut (s t : State) (ea : Nat) : Prop := ∀ a, a ≠ ea → t.memRead a = s.memRead a

/-- The active instance exists and its memory is in canonical form: the hypothesis of the statements about one instruction. Every state
of `Shape` and `WordsOk` in which the step has chosen an instance meets it. -/
structure State.Ready (s : State) : Prop where
  active : s.active < s.insts.length
  form : s.me.mem.wf = true

end Sys2Proof.Machine
end

