-- ==== Sys2Proof/Certificates/Slice0/Obligations.lean ====
section
/-!
DEFINITION. The statements for the provers, in the order of OBLIGATIONS.json. They state and never prove. `R<n>` is a rule of spec/, `log <n>` a
row of notes/assumptions/.
-/

open Sys2Proof Sys2Proof.Machine

/-! ### Words, encoding and the decoder -/

/-- R9: `wrap_W(x)` is a W-bit Word, congruent to `x` modulo `2^W`, and the only such Word. -/
def Obligations.WrapIsTheUniqueCongruentWord : Prop :=
  ∀ (W : Nat) (x : Int), 1 ≤ W →
    fits W (wrap W x) ∧ (wrap W x - x) % modulus W = 0 ∧
      ∀ y : Int, fits W y → (y - x) % modulus W = 0 → y = wrap W x

/-- R113, R115, R123: words written out from the encoding tables decode to the instructions they stand for. -/
def Obligations.WrittenOutWordsDecode : Prop :=
  decode .ignore 1 = .instr (.add .position .position .position) ∧
  decode .ignore 21101 = .instr (.add .immediate .immediate .relative) ∧
  decode .ignore 1002 = .instr (.mul .position .immediate .position) ∧
  decode .ignore 203 = .instr (.inp .relative) ∧
  decode .ignore 104 = .instr (.out .immediate) ∧
  decode .ignore 1205 = .instr (.jt .relative .immediate) ∧
  decode .ignore 1006 = .instr (.jf .position .immediate) ∧
  decode .ignore 20107 = .instr (.lt .immediate .position .relative) ∧
  decode .ignore 1208 = .instr (.eq .relative .immediate .position) ∧
  decode .ignore 209 = .instr (.arb .relative) ∧
  decode .ignore 99 = .instr .halt ∧
  decode .ignore 199 = .instr .halt ∧
  decode .fault 199 = .reject .extraDigits none ∧
  decode .ignore (-99) = .reject .negativeWord none ∧
  decode .ignore 0 = .reject .badOpcode none ∧
  decode .ignore 11101 = .reject .immediateDestination (some 2) ∧
  decode .ignore 301 = .reject .badMode (some 0)

/-- R120, R123: decoding the encoding of a well-formed instruction gives it back, in both settings of EXTRA_DIGITS. -/
def Obligations.DecodeOfEncodeIsTheInstruction : Prop :=
  ∀ (x : ExtraDigits) (i : Instr), i.wf = true → decode x (encode i) = .instr i

/-- R123: under EXTRA_DIGITS = FAULT the decoder accepts exactly the words of the table of legal words, each as the instruction that it
encodes. -/
def Obligations.FaultModeAcceptsExactlyTheLegalWords : Prop :=
  ∀ (w : Int) (i : Instr), decode .fault w = .instr i ↔ i.wf = true ∧ w = encode i

/-- R118, R123: under EXTRA_DIGITS = IGNORE the decoder accepts exactly the non-negative words whose low `2+n` digits are a legal word, and
reads the same instruction from them. -/
def Obligations.IgnoreModeReadsOnlyTheLowDigits : Prop :=
  ∀ (w : Int) (i : Instr),
    decode .ignore w = .instr i ↔ i.wf = true ∧ 0 ≤ w ∧ w % (10 : Int) ^ (2 + i.params) = encode i

/-- R120: the decoder makes its checks in order: the sign; the opcode; for each parameter in order its mode digit and, at the destination,
Immediate; the extra digits; and a word that passes them all is the instruction with that opcode and those modes. -/
def Obligations.DecoderChecksInOrder : Prop :=
  ∀ (x : ExtraDigits) (w : Int),
    (w < 0 → decode x w = .reject .negativeWord none) ∧
    (0 ≤ w → nparams (w.toNat % 100) = none → decode x w = .reject .badOpcode none) ∧
    (∀ n p, 0 ≤ w → nparams (w.toNat % 100) = some n → p < n →
      (∀ q, q < p → digit (2 + q) w.toNat ≤ 2 ∧
        ¬(destParam (w.toNat % 100) = some q ∧ digit (2 + q) w.toNat = 1)) →
      (3 ≤ digit (2 + p) w.toNat → decode x w = .reject .badMode (some p)) ∧
      (destParam (w.toNat % 100) = some p → digit (2 + p) w.toNat = 1 →
        decode x w = .reject .immediateDestination (some p))) ∧
    (∀ n, 0 ≤ w → nparams (w.toNat % 100) = some n →
      (∀ q, q < n → digit (2 + q) w.toNat ≤ 2 ∧
        ¬(destParam (w.toNat % 100) = some q ∧ digit (2 + q) w.toNat = 1)) →
      (x = .fault → w.toNat / 10 ^ (2 + n) ≠ 0 → decode x w = .reject .extraDigits none) ∧
      ((x = .ignore ∨ w.toNat / 10 ^ (2 + n) = 0) →
        ∃ i, decode x w = .instr i ∧ i.opcode = w.toNat % 100 ∧
          i.modes.map Mode.digit = (List.range n).map fun q => digit (2 + q) w.toNat))

/-! ### Memory, operands -/

/-- R62, R63 of the active instance: a stored word reads back, no other address and no other instance's memory changes, and a read at or
above MEM_WORDS gives 0. -/
def Obligations.StoreChangesOneWord : Prop :=
  ∀ (s : State) (a : Nat) (v : Int), s.Ready → a < s.cfg.memWords →
    (s.memWrite a v).memRead a = v ∧
    (∀ b, b ≠ a → (s.memWrite a v).memRead b = s.memRead b) ∧
    (∀ j b, j ≠ s.active → (s.memWrite a v).readAt j b = s.readAt j b) ∧
    (∀ b, s.cfg.memWords ≤ b → s.memRead b = 0)

/-- R71 to R76 and R78: the resolver, case by case. -/
def Obligations.ResolverFollowsItsProcedure : Prop :=
  ∀ (s : State) (p : Nat) (m : Mode) (isDest : Bool) (slot ea : Int),
    slot = wrap s.cfg.wordBits (s.me.pc + 1 + (p : Int)) →
    ea = (match m with
      | .position => s.memRead slot.toNat
      | .immediate => slot
      | .relative => wrap s.cfg.wordBits (s.me.rb + s.memRead slot.toNat)) →
    (slot < 0 → s.resolve p m isDest = .error (addressFault p slot)) ∧
    (0 ≤ slot → ea < 0 → s.resolve p m isDest = .error (addressFault p ea)) ∧
    (0 ≤ slot → 0 ≤ ea → isDest = true → (s.cfg.memWords : Int) ≤ ea →
      s.resolve p m isDest = .error (capacityFault p ea)) ∧
    (0 ≤ slot → 0 ≤ ea → (isDest = true → ea < (s.cfg.memWords : Int)) →
      s.resolve p m isDest = .ok ea.toNat)

/-- R78, R225: at the default MEM_WORDS = 2^(W-1) no parameter raises CapacityFault. -/
def Obligations.DefaultMemoryHasNoCapacityFault : Prop :=
  ∀ (s : State) (p : Nat) (m : Mode) (isDest : Bool) (q : Nat) (a : Int),
    s.Shape → s.WordsOk → s.active < s.insts.length → s.cfg.memWords = 2 ^ (s.cfg.wordBits - 1) →
    s.resolve p m isDest ≠ .error (capacityFault q a)

/-! ### The instructions, where they complete: their result and their frame -/

/-- R170: ADD. -/
def Obligations.AddStoresTheWrappedSum : Prop :=
  ∀ (s : State) (a b d : Mode) (ea0 ea1 ea2 : Nat), s.Ready →
    s.resolve 0 a false = .ok ea0 → s.resolve 1 b false = .ok ea1 → s.resolve 2 d true = .ok ea2 →
    ∃ t, exec (.add a b d) s = .next t ∧ s.OnlyActive t ∧ s.SameMemoryBut t ea2 ∧
      t.memRead ea2 = wrap s.cfg.wordBits (s.memRead ea0 + s.memRead ea1) ∧
      t.me.pc = wrap s.cfg.wordBits (s.me.pc + 4) ∧ t.me.rb = s.me.rb ∧ t.me.estate = .running

/-- R171: MUL. -/
def Obligations.MulStoresTheWrappedProduct : Prop :=
  ∀ (s : State) (a b d : Mode) (ea0 ea1 ea2 : Nat), s.Ready →
    s.resolve 0 a false = .ok ea0 → s.resolve 1 b false = .ok ea1 → s.resolve 2 d true = .ok ea2 →
    ∃ t, exec (.mul a b d) s = .next t ∧ s.OnlyActive t ∧ s.SameMemoryBut t ea2 ∧
      t.memRead ea2 = wrap s.cfg.wordBits (s.memRead ea0 * s.memRead ea1) ∧
      t.me.pc = wrap s.cfg.wordBits (s.me.pc + 4) ∧ t.me.rb = s.me.rb ∧ t.me.estate = .running

/-- R200: LT. -/
def Obligations.LtStoresTheSignedComparison : Prop :=
  ∀ (s : State) (a b d : Mode) (ea0 ea1 ea2 : Nat), s.Ready →
    s.resolve 0 a false = .ok ea0 → s.resolve 1 b false = .ok ea1 → s.resolve 2 d true = .ok ea2 →
    ∃ t, exec (.lt a b d) s = .next t ∧ s.OnlyActive t ∧ s.SameMemoryBut t ea2 ∧
      (s.memRead ea0 < s.memRead ea1 → t.memRead ea2 = 1) ∧
      (s.memRead ea1 ≤ s.memRead ea0 → t.memRead ea2 = 0) ∧
      t.me.pc = wrap s.cfg.wordBits (s.me.pc + 4) ∧ t.me.rb = s.me.rb ∧ t.me.estate = .running

/-- R201: EQ. -/
def Obligations.EqStoresTheEquality : Prop :=
  ∀ (s : State) (a b d : Mode) (ea0 ea1 ea2 : Nat), s.Ready →
    s.resolve 0 a false = .ok ea0 → s.resolve 1 b false = .ok ea1 → s.resolve 2 d true = .ok ea2 →
    ∃ t, exec (.eq a b d) s = .next t ∧ s.OnlyActive t ∧ s.SameMemoryBut t ea2 ∧
      (s.memRead ea0 = s.memRead ea1 → t.memRead ea2 = 1) ∧
      (s.memRead ea0 ≠ s.memRead ea1 → t.memRead ea2 = 0) ∧
      t.me.pc = wrap s.cfg.wordBits (s.me.pc + 4) ∧ t.me.rb = s.me.rb ∧ t.me.estate = .running

/-- R180: IN with a value in its channel: the oldest value is stored and leaves the channel, closed or not, and nothing else changes. -/
def Obligations.InStoresTheOldestValue : Prop :=
  ∀ (s : State) (d : Mode) (ea : Nat) (v : Int) (rest : List Int), s.Ready →
    s.active < s.chans.length → s.resolve 0 d true = .ok ea → (s.chan s.active).buf = v :: rest →
    ∃ t, exec (.inp d) s = .next t ∧ s.Elsewhere t ∧ s.SameMemoryBut t ea ∧ t.memRead ea = v ∧
      (t.chan s.active).buf = rest ∧ (t.chan s.active).closed = (s.chan s.active).closed ∧
      (∀ j, j ≠ s.active → t.chan j = s.chan j) ∧
      t.nstate = s.nstate ∧ t.lastOut = s.lastOut ∧ t.nfault = s.nfault ∧ t.me.fault = s.me.fault ∧
      t.me.pc = wrap s.cfg.wordBits (s.me.pc + 2) ∧ t.me.rb = s.me.rb ∧ t.me.estate = .running

/-- R180, R150, R223: IN with an empty channel waits while it is open, with no other effect, and takes ChannelClosedFault when it is
closed. -/
def Obligations.InWaitsOrFaultsOnAnEmptyChannel : Prop :=
  ∀ (s : State) (d : Mode) (ea : Nat), s.resolve 0 d true = .ok ea → (s.chan s.active).buf = [] →
    ((s.chan s.active).closed = false →
      exec (.inp d) s = .next (s.setMe { s.me with estate := .waitingOnInput })) ∧
    ((s.chan s.active).closed = true →
      exec (.inp d) s = .next (s.raise
        { kind := .channelClosedFault, sub := none, param := some 0, addr := none }))

/-- R181, R86, R247: OUT to a channel that takes its value: appended, or dropped where the consumer has stopped; the terminal instance's tap
records it in both cases; nothing else changes. -/
def Obligations.OutPushesItsOperand : Prop :=
  ∀ (s : State) (a : Mode) (ea : Nat), s.Ready → s.outIndex < s.chans.length →
    s.resolve 0 a false = .ok ea → (s.consumerStopped s.outIndex = true ∨ s.full s.outIndex = false) →
    ∃ t, exec (.out a) s = .next t ∧ s.Elsewhere t ∧ s.SameMemory t ∧
      (s.consumerStopped s.outIndex = true → t.chans = s.chans) ∧
      (s.consumerStopped s.outIndex = false →
        (t.chan s.outIndex).buf = (s.chan s.outIndex).buf ++ [s.memRead ea] ∧
        (t.chan s.outIndex).closed = (s.chan s.outIndex).closed) ∧
      (∀ j, j ≠ s.outIndex → t.chan j = s.chan j) ∧
      (s.active = s.cfg.terminal → t.lastOut = some (s.memRead ea)) ∧
      (s.active ≠ s.cfg.terminal → t.lastOut = s.lastOut) ∧
      t.nstate = s.nstate ∧ t.nfault = s.nfault ∧ t.me.fault = s.me.fault ∧
      t.me.pc = wrap s.cfg.wordBits (s.me.pc + 2) ∧ t.me.rb = s.me.rb ∧ t.me.estate = .running

/-- R181, R86, R150: OUT to a full channel whose consumer has not stopped waits, with no other effect; with CHAN_CAP = UNBOUNDED no channel
is full, and the sink never is. -/
def Obligations.OutWaitsOnAFullChannel : Prop :=
  ∀ (s : State) (a : Mode) (ea : Nat), s.resolve 0 a false = .ok ea →
    (s.consumerStopped s.outIndex = false → s.full s.outIndex = true →
      exec (.out a) s = .next (s.setMe { s.me with estate := .waitingOnOutput })) ∧
    (∀ j, s.full j = true ↔ ∃ k, s.cfg.chanCap = .bounded k ∧ j < s.cfg.instances ∧ k ≤ (s.chan j).buf.length) ∧
    (∀ j, s.consumerStopped j = true ↔
      j < s.cfg.instances ∧ ((s.inst j).estate = .halted ∨ (s.inst j).estate = .faulted))

/-- R190: JT, taken when its condition is not 0. -/
def Obligations.JtJumpsOnANonZeroWord : Prop :=
  ∀ (s : State) (a b : Mode) (ea0 ea1 : Nat), s.Ready →
    s.resolve 0 a false = .ok ea0 → s.resolve 1 b false = .ok ea1 →
    ∃ t, exec (.jt a b) s = .next t ∧ s.OnlyActive t ∧ s.SameMemory t ∧
      (s.memRead ea0 ≠ 0 → t.me.pc = s.memRead ea1) ∧
      (s.memRead ea0 = 0 → t.me.pc = wrap s.cfg.wordBits (s.me.pc + 3)) ∧
      t.me.rb = s.me.rb ∧ t.me.estate = .running

/-- R191: JF, taken when its condition is 0. -/
def Obligations.JfJumpsOnZero : Prop :=
  ∀ (s : State) (a b : Mode) (ea0 ea1 : Nat), s.Ready →
    s.resolve 0 a false = .ok ea0 → s.resolve 1 b false = .ok ea1 →
    ∃ t, exec (.jf a b) s = .next t ∧ s.OnlyActive t ∧ s.SameMemory t ∧
      (s.memRead ea0 = 0 → t.me.pc = s.memRead ea1) ∧
      (s.memRead ea0 ≠ 0 → t.me.pc = wrap s.cfg.wordBits (s.me.pc + 3)) ∧
      t.me.rb = s.me.rb ∧ t.me.estate = .running

/-- R210: ARB adds its operand, read at the old `rb`, to `rb`. -/
def Obligations.ArbAdjustsTheRelativeBase : Prop :=
  ∀ (s : State) (a : Mode) (ea : Nat), s.Ready → s.resolve 0 a false = .ok ea →
    ∃ t, exec (.arb a) s = .next t ∧ s.OnlyActive t ∧ s.SameMemory t ∧
      t.me.rb = wrap s.cfg.wordBits (s.me.rb + s.memRead ea) ∧
      t.me.pc = wrap s.cfg.wordBits (s.me.pc + 2) ∧ t.me.estate = .running

/-- R215, R157, R248, R249, R261: HALT, in every state: the engine halts with `pc` unchanged and its output channel is closed with its values kept.
At a non-terminal instance the network goes on; at the terminal instance it is Done if a value was ever pushed, and Faulted with NoOutput if
not. A `runOnce` is Done in both cases, which is the model's reading of R261 (log 7). -/
def Obligations.HaltStopsTheEngine : Prop :=
  ∀ (s : State), s.active < s.insts.length → s.outIndex < s.chans.length →
    ∃ t, exec .halt s = .next t ∧ s.Elsewhere t ∧ t.me = { s.me with estate := .halted } ∧
      t.lastOut = s.lastOut ∧ (∀ j, j ≠ s.outIndex → t.chan j = s.chan j) ∧
      (t.chan s.outIndex).buf = (s.chan s.outIndex).buf ∧ (t.chan s.outIndex).closed = true ∧
      (s.active ≠ s.cfg.terminal → t.nstate = s.nstate ∧ t.nfault = s.nfault) ∧
      (s.active = s.cfg.terminal → (s.lastOut ≠ none ∨ s.cfg.isRunOnce = true) →
        t.nstate = .done ∧ t.nfault = s.nfault) ∧
      (s.active = s.cfg.terminal → s.lastOut = none → s.cfg.isRunOnce = false →
        t.nstate = .faulted ∧ t.nfault = some (s.active, .noOutput))

/-- R172: Add and Multiply give the same next state from the same operand values and destination, whatever the modes that supplied them. -/
def Obligations.ModesOnlySourceTheOperands : Prop :=
  ∀ (s : State) (a b d a' b' d' : Mode) (x y : Int) (ea : Nat),
    s.src2dst a b d = .ok (x, y, ea) → s.src2dst a' b' d' = .ok (x, y, ea) →
    exec (.add a b d) s = exec (.add a' b' d') s ∧ exec (.mul a b d) s = exec (.mul a' b' d') s

/-! ### Faults -/

/-- R224, R148, R38: what taking a fault does, field by field, and nothing else; with the network's reaction (R250). -/
def Obligations.RaiseRecordsAndStops : Prop :=
  ∀ (s : State) (f : FaultInfo), s.active < s.insts.length → s.outIndex < s.chans.length →
    ∃ r : FaultRec,
      r.kind = f.kind ∧ r.sub = f.sub ∧ r.param = f.param ∧ r.addr = f.addr ∧ r.pc = s.me.pc ∧
      (s.me.pc < 0 → r.word = none ∧ r.opcode = none) ∧
      (0 ≤ s.me.pc → r.word = some (s.memRead s.me.pc.toNat) ∧
        (s.memRead s.me.pc.toNat < 0 → r.opcode = none) ∧
        (0 ≤ s.memRead s.me.pc.toNat → r.opcode = some ((s.memRead s.me.pc.toNat).toNat % 100))) ∧
      s.Elsewhere (s.raise f) ∧
      (s.raise f).me = { s.me with estate := .faulted, fault := some r } ∧
      (∀ j, j ≠ s.outIndex → (s.raise f).chan j = s.chan j) ∧
      ((s.raise f).chan s.outIndex).buf = (s.chan s.outIndex).buf ∧
      ((s.raise f).chan s.outIndex).closed = true ∧
      (s.raise f).lastOut = s.lastOut ∧
      (s.raise f).nstate = .faulted ∧ (s.raise f).nfault = some (s.active, .recorded r)

/-- R145, R227: the resolver's faults, for parameter 0, then 1, then 2, come before every effect and before channel readiness: the first that
fails is the fault the instruction takes. -/
def Obligations.FirstFailingParameterIsTheFault : Prop :=
  ∀ (s : State) (a b d : Mode) (f : FaultInfo),
    (s.resolve 0 a false = .error f → ∀ i ∈ [Instr.add a b d, .mul a b d, .lt a b d, .eq a b d, .jt a b, .jf a b,
      .arb a, .out a], exec i s = .next (s.raise f)) ∧
    (s.resolve 0 d true = .error f → exec (.inp d) s = .next (s.raise f)) ∧
    (∀ ea0, s.resolve 0 a false = .ok ea0 → s.resolve 1 b false = .error f →
      ∀ i ∈ [Instr.add a b d, .mul a b d, .lt a b d, .eq a b d, .jt a b, .jf a b], exec i s = .next (s.raise f)) ∧
    (∀ ea0 ea1, s.resolve 0 a false = .ok ea0 → s.resolve 1 b false = .ok ea1 → s.resolve 2 d true = .error f →
      ∀ i ∈ [Instr.add a b d, .mul a b d, .lt a b d, .eq a b d], exec i s = .next (s.raise f))

/-! ### The step -/

/-- R143, R246: when the network runs, an instance has an enabled step, and the chosen instance's word decodes, the step is `exec` of that
instruction at the state in which the choice is made. The choice is the only enabled instance, or the one the arbiter names (log 5). -/
def Obligations.StepRunsTheDecodedInstruction : Prop :=
  ∀ (s u : State) (i : Instr), s.nstate = .running → s.enabled ≠ [] →
    u = { s with
      active := pick s.enabled s.choice
      schedule := s.schedule.tail
      tick := s.tick + 1 } →
    0 ≤ u.me.pc → decode u.cfg.extraDigits (u.memRead u.me.pc.toNat) = .instr i →
    step s = exec i u

/-- R144, R120: a negative `pc` takes AddressFault before any read, and a word that does not decode takes the DecodeFault the decoder names. -/
def Obligations.StepFaultsAtFetchAndDecode : Prop :=
  ∀ (s u : State), s.nstate = .running → s.enabled ≠ [] → u = s.grant (pick s.enabled s.choice) →
    (u.me.pc < 0 → step s = .next (u.raise
      { kind := .addressFault, sub := none, param := none, addr := some u.me.pc })) ∧
    (∀ sub p, 0 ≤ u.me.pc → decode u.cfg.extraDigits (u.memRead u.me.pc.toNat) = .reject sub p →
      step s = .next (u.raise { kind := .decodeFault, sub := some sub, param := p, addr := none }))

/-- R246, R142: the instances that may step are those R142 names, and any of them is stepped by some choice of the arbiter (log 5). -/
def Obligations.AnyEnabledInstanceMayStep : Prop :=
  ∀ (s : State) (i : Nat), s.nstate = .running →
    (i ∈ s.enabled ↔ i < s.insts.length ∧
      ((s.inst i).estate = .running ∨
       ((s.inst i).estate = .waitingOnInput ∧ ((s.chan i).buf ≠ [] ∨ (s.chan i).closed = true)) ∨
       ((s.inst i).estate = .waitingOnOutput ∧
         (s.consumerStopped (s.cfg.outChannel i) = true ∨ s.full (s.cfg.outChannel i) = false)))) ∧
    (i ∈ s.enabled → ∀ rest, step { s with schedule := i :: rest } =
      ({ s with active := i, schedule := rest, tick := s.tick + 1 } : State).runActive) ∧
    (s.enabled ≠ [] → pick s.enabled s.choice ∈ s.enabled)

/-- R245, R243, R290: the start step of a `buildNetwork` network: every instance instantiated, the channels seeded, single-pass `ch[0]`
closed, the sink empty and open, and the network Running. -/
def Obligations.StartInstantiatesAndSeeds : Prop :=
  ∀ (s : State) (phases : List Int) (feedback : Bool) (drive : Int),
    s.nstate = .configured → s.cfg.entry = .network phases feedback drive → phases ≠ [] →
    ∃ t, step s = .next t ∧ t.nstate = .running ∧ t.cfg = s.cfg ∧ t.lastOut = s.lastOut ∧ t.nfault = s.nfault ∧
      t.insts.length = phases.length ∧
      (∀ i, i < phases.length → (t.inst i).pc = 0 ∧ (t.inst i).rb = 0 ∧ (t.inst i).estate = .running ∧
        (t.inst i).fault = none ∧
        ∀ a, a < s.cfg.memWords → t.readAt i a = s.cfg.program.getD a 0) ∧
      (t.chan 0).buf = [phases.headD 0, drive] ∧ (t.chan 0).closed = !feedback ∧
      (∀ j, 0 < j → j < phases.length → (t.chan j).buf = [phases.getD j 0] ∧ (t.chan j).closed = false) ∧
      (feedback = false → t.chans.length = phases.length + 1 ∧ t.chan phases.length = Channel.fresh) ∧
      (feedback = true → t.chans.length = phases.length)

/-- R261: the start step of a `runOnce`: one instance, its input channel holding the inputs and closed, and an empty, open sink. -/
def Obligations.RunOnceStartsWithItsInputs : Prop :=
  ∀ (s : State) (inputs : List Int), s.nstate = .configured → s.cfg.entry = .runOnce inputs →
    ∃ t, step s = .next t ∧ t.nstate = .running ∧ t.cfg = s.cfg ∧ t.insts.length = 1 ∧
      (t.inst 0).pc = 0 ∧ (t.inst 0).rb = 0 ∧ (t.inst 0).estate = .running ∧ (t.inst 0).fault = none ∧
      (∀ a, a < s.cfg.memWords → t.readAt 0 a = s.cfg.program.getD a 0) ∧
      (t.chan 0).buf = inputs ∧ (t.chan 0).closed = true ∧ t.chan 1 = Channel.fresh ∧
      t.cfg.outChannel 0 = 1 ∧ t.cfg.terminal = 0

/-- R293: building a network sets the network's registers and leaves every channel empty and open, for every configuration. -/
def Obligations.BuildResetsTheNetwork : Prop :=
  ∀ (c : Config),
    (State.build c).nstate = .configured ∧ (State.build c).lastOut = none ∧ (State.build c).nfault = none ∧
    (State.build c).chans.length = c.channels ∧
    (∀ j, j < c.channels → ((State.build c).chan j).buf = [] ∧ ((State.build c).chan j).closed = false)

/-- R47: the reset values of every instance. That they stand in the instances of a network that is not yet started is the model's reading
(log 16). -/
def Obligations.BuildGivesTheResetValues : Prop :=
  ∀ (c : Config), (State.build c).insts.length = c.instances ∧
    ∀ i, i < c.instances → ((State.build c).inst i).pc = 0 ∧ ((State.build c).inst i).rb = 0 ∧
      ((State.build c).inst i).estate = .running ∧ ((State.build c).inst i).fault = none ∧
      ∀ a, a < c.memWords → (State.build c).readAt i a = c.program.getD a 0

/-- R251: with no enabled instance the step of a Running network is the detector's, which records every instance's `estate` and `pc` and
changes no instance and no channel; in that situation every instance that is not Halted waits on an empty open channel or on a full channel with a
live consumer, and the terminal instance is not Halted; and in no other situation does a step lead to Deadlocked. -/
def Obligations.DeadlockIsDetected : Prop :=
  ∀ (s : State), s.Shape → s.Control → s.nstate = .running →
    (s.enabled = [] →
      (∃ t, step s = .next t ∧ t.nstate = .deadlocked ∧
        t.deadlock = some (s.insts.map fun m => (m.estate, m.pc)) ∧
        t.insts = s.insts ∧ t.chans = s.chans ∧ t.lastOut = s.lastOut ∧ t.nfault = s.nfault ∧ t.cfg = s.cfg) ∧
      (∀ i, i < s.cfg.instances →
        (s.inst i).estate = .halted ∨
        ((s.inst i).estate = .waitingOnInput ∧ (s.chan i).buf = [] ∧ (s.chan i).closed = false) ∨
        ((s.inst i).estate = .waitingOnOutput ∧ s.full (s.cfg.outChannel i) = true ∧
          s.consumerStopped (s.cfg.outChannel i) = false)) ∧
      (s.inst s.cfg.terminal).estate ≠ .halted) ∧
    (s.enabled ≠ [] → ∀ t, step s = .next t → t.nstate ≠ .deadlocked)

/-- R252, R244: in a final `nstate` the block has no step (the model's stop `networkEnded`, log 9), and in every other it has one. -/
def Obligations.StepStopsExactlyWhenTheNetworkEnded : Prop :=
  ∀ (s : State),
    ((s.nstate = .done ∨ s.nstate = .faulted ∨ s.nstate = .deadlocked) → step s = .fault .networkEnded) ∧
    ((s.nstate = .configured ∨ s.nstate = .running) → ∃ t, step s = .next t)

/-- R260, R141 of one engine: where instance `i` has an enabled step, the host's `step()` is the step of the network in which the arbiter names
`i` (log 20), and it reports the new `estate`; where it has none, there is no step. -/
def Obligations.EngineStepIsAStepTheArbiterMayChoose : Prop :=
  ∀ (s : State) (i : Nat),
    (s.nstate = .running → i ∈ s.enabled →
      ∃ t, step { s with schedule := i :: s.schedule } = .next t ∧ s.engineStep i = some ((t.inst i).estate, t)) ∧
    ((s.nstate ≠ .running ∨ i ∉ s.enabled) → s.engineStep i = none)

/-! ### Channels -/

/-- R85: Pop. -/
def Obligations.PopTakesTheOldestValue : Prop :=
  ∀ (s : State) (j : Nat), j < s.chans.length →
    (∀ v rest, (s.chan j).buf = v :: rest → ∃ t, s.pop j = .value v t ∧ (t.chan j).buf = rest ∧
      (t.chan j).closed = (s.chan j).closed ∧ (∀ k, k ≠ j → t.chan k = s.chan k) ∧
      t = { s with chans := t.chans }) ∧
    ((s.chan j).buf = [] → (s.chan j).closed = true → s.pop j = .endOfStream) ∧
    ((s.chan j).buf = [] → (s.chan j).closed = false → s.pop j = .empty)

/-- R86, R84: Push, by whether the channel's consumer is an instance that has stopped, and whether it is a bounded channel that holds
CHAN_CAP values or more. -/
def Obligations.PushAppendsDropsOrRefuses : Prop :=
  ∀ (s : State) (j : Nat) (v : Int) (stopped full : Prop), j < s.chans.length →
    (stopped ↔ j < s.cfg.instances ∧ ((s.inst j).estate = .halted ∨ (s.inst j).estate = .faulted)) →
    (full ↔ ∃ k, s.cfg.chanCap = .bounded k ∧ j < s.cfg.instances ∧ k ≤ (s.chan j).buf.length) →
    (stopped → s.push j v = .accepted s) ∧
    (¬ stopped → full → s.push j v = .full) ∧
    (¬ stopped → ¬ full →
      ∃ t, s.push j v = .accepted t ∧ (t.chan j).buf = (s.chan j).buf ++ [v] ∧
        (t.chan j).closed = (s.chan j).closed ∧ (∀ k, k ≠ j → t.chan k = s.chan k) ∧
        t = { s with chans := t.chans })

/-! ### Whole-machine rules -/

/-- R244: the transitions of the termination-detection machine, and no other but one that is the model's choice (log 7, its reading of R261): a
`runOnce` whose instance halts with no value pushed goes to Done, which is no row of R244's table. -/
def Obligations.NetworkTransitionsAreTheTable : Prop :=
  ∀ (s t : State), s.Shape → s.Control → step s = .next t →
    (s.nstate = .configured ∧ t.nstate = .running) ∨
    (s.nstate = .running ∧ s.enabled = [] ∧ t.nstate = .deadlocked) ∨
    (s.nstate = .running ∧ t.active ∈ s.enabled ∧
      (((t.inst t.active).estate = .faulted ∧ t.nstate = .faulted ∧
          ∃ r, (t.inst t.active).fault = some r ∧ t.nfault = some (t.active, .recorded r)) ∨
       (t.active = s.cfg.terminal ∧ (t.inst t.active).estate = .halted ∧
          (s.lastOut ≠ none ∨ s.cfg.isRunOnce = true) ∧ t.nstate = .done) ∨
       (t.active = s.cfg.terminal ∧ (t.inst t.active).estate = .halted ∧ s.lastOut = none ∧
          s.cfg.isRunOnce = false ∧ t.nstate = .faulted ∧ t.nfault = some (t.active, .noOutput)) ∨
       ((t.inst t.active).estate ≠ .faulted ∧
          ¬(t.active = s.cfg.terminal ∧ (t.inst t.active).estate = .halted) ∧ t.nstate = .running)))

/-- R33: the `pc` after a step of an engine that faults, waits or halts, at whatever stage, is the one before; and after an instruction that
completes it is past its slots, but for a jump that is taken, where it is the second operand. -/
def Obligations.PcMovesOnlyAsTheRuleSays : Prop :=
  ∀ (s t : State), s.active < s.insts.length →
    (s.runActive = .next t → t.me.estate ≠ .running → t.me.pc = s.me.pc) ∧
    ∀ i : Instr, exec i s = .next t →
      (t.me.estate ≠ .running → t.me.pc = s.me.pc) ∧
      (i = .halt → t.me.pc = s.me.pc) ∧
      (t.me.estate = .running → (∀ a b, i ≠ .jt a b ∧ i ≠ .jf a b) → i ≠ .halt →
        t.me.pc = wrap s.cfg.wordBits (s.me.pc + 1 + (i.params : Int))) ∧
      (∀ a b, i = .jt a b → t.me.estate = .running → ∃ x y, s.src2 a b = .ok (x, y) ∧
        t.me.pc = if x = 0 then wrap s.cfg.wordBits (s.me.pc + 3) else y) ∧
      (∀ a b, i = .jf a b → t.me.estate = .running → ∃ x y, s.src2 a b = .ok (x, y) ∧
        t.me.pc = if x = 0 then y else wrap s.cfg.wordBits (s.me.pc + 3))

/-- R35: no instruction but ARB changes any `rb`, and ARB changes the active instance's only, to `wrap_W(rb + a)` when it completes and not at
all when it faults. -/
def Obligations.OnlyArbWritesTheRelativeBase : Prop :=
  ∀ (s t : State) (i : Instr), exec i s = .next t →
    (∀ j, j ≠ s.active → (t.inst j).rb = (s.inst j).rb) ∧
    ((∀ a, i ≠ .arb a) → t.me.rb = s.me.rb) ∧
    (∀ a, i = .arb a → t.me.rb ≠ s.me.rb → ∃ x, s.src1 a = .ok x ∧ t.me.rb = wrap s.cfg.wordBits (s.me.rb + x))

/-- R81: OUT, JT, JF, ARB and HALT write no memory; ADD, MUL, IN, LT and EQ write at most the word their last parameter resolves to, in the
memory of the active instance; a step that faults, at whatever stage, or waits writes nothing. -/
def Obligations.OnlyTheDestinationIsWritten : Prop :=
  ∀ (s t : State) (j a : Nat), t.readAt j a ≠ s.readAt j a →
    (s.runActive = .next t → j = s.active ∧ t.me.estate = .running ∧ ∃ i, s.fetch = .ok i ∧ exec i s = .next t) ∧
    ∀ i : Instr, exec i s = .next t →
      j = s.active ∧ t.me.estate = .running ∧
      ((∃ m n d, (i = .add m n d ∨ i = .mul m n d ∨ i = .lt m n d ∨ i = .eq m n d) ∧ s.resolve 2 d true = .ok a) ∨
       (∃ d, i = .inp d ∧ s.resolve 0 d true = .ok a))

/-- R242, R44: no step changes the configuration, and with it the wiring; nor the number of instances or channels. -/
def Obligations.ConfigurationNeverChanges : Prop :=
  ∀ (s t : State), s.Shape → step s = .next t →
    t.cfg = s.cfg ∧ t.insts.length = s.insts.length ∧ t.chans.length = s.chans.length

/-- R46, R65, R140, R152, R230: a step of a Running network changes no instance but the one it steps, and none that is Halted or Faulted. -/
def Obligations.InstancesAreIsolatedAndFinalOnesFrozen : Prop :=
  ∀ (s t : State) (j : Nat), s.nstate = .running → step s = .next t →
    (j ≠ t.active → t.inst j = s.inst j) ∧ ((s.inst j).estate.final = true → t.inst j = s.inst j)

/-- R88, R87: in a step of a Running network a channel's values stay as they are, or the consumer takes the oldest, or the producer appends
one; `closed` is never cleared. -/
def Obligations.ChannelsAreFifo : Prop :=
  ∀ (s t : State) (j : Nat), s.nstate = .running → step s = .next t →
    ((t.chan j).buf = (s.chan j).buf ∨
      (j = t.active ∧ ∃ v, (s.chan j).buf = v :: (t.chan j).buf) ∨
      (j = s.cfg.outChannel t.active ∧ ∃ v, (t.chan j).buf = (s.chan j).buf ++ [v])) ∧
    ((s.chan j).closed = true → (t.chan j).closed = true)

/-- R154: an engine's step is a function of its own registers and memory, the head of its input channel and whether that is closed, and whether
its output channel would accept: two states that agree on these give the stepped instance the same next state. -/
def Obligations.EngineStepDependsOnItsViewOnly : Prop :=
  ∀ (s u : State), s.cfg = u.cfg → s.active = u.active →
    s.active < s.insts.length → u.active < u.insts.length → s.me = u.me →
    (s.chan s.active).buf.head? = (u.chan u.active).buf.head? →
    (s.chan s.active).closed = (u.chan u.active).closed →
    s.accepts s.outIndex = u.accepts u.outIndex →
    ∃ s' u', s.runActive = .next s' ∧ u.runActive = .next u' ∧ s'.me = u'.me

/-- R254: the steps of two different enabled instances that both complete (neither waits, halts nor faults) give the same instances, channels
and network registers in either order. -/
def Obligations.CompletedStepsOfTwoInstancesCommute : Prop :=
  ∀ (s a b : State) (i j : Nat), s.Shape → s.nstate = .running → i ≠ j → i ∈ s.enabled → j ∈ s.enabled →
    (s.grant i).runActive = .next a → (a.inst i).estate = .running →
    (s.grant j).runActive = .next b → (b.inst j).estate = .running →
    ∃ u v, (a.grant j).runActive = .next u ∧ (b.grant i).runActive = .next v ∧
      (u.inst j).estate = .running ∧ (v.inst i).estate = .running ∧
      u.insts = v.insts ∧ u.chans = v.chans ∧ u.lastOut = v.lastOut ∧ u.nstate = v.nstate ∧ u.nfault = v.nfault ∧
      u.cfg = v.cfg

/-- R31, R40, R9: every step keeps the shape of the state, keeps every register, memory cell, channel value and the tap a W-bit Word, and keeps
every memory canonical and below MEM_WORDS. -/
def Obligations.StepKeepsEveryWordInRange : Prop :=
  ∀ (s t : State), s.Shape → s.WordsOk → step s = .next t → t.Shape ∧ t.WordsOk

/-- R37, R38, R87, R157, R244, R248, R250, R261: every step keeps the status registers in agreement. That a `runOnce` that halted without output
is Done and never NoOutput, in the `done` and `faulted` clauses of `Control`, is the model's reading of R261 (log 7). -/
def Obligations.StepKeepsTheStatusRegistersConsistent : Prop :=
  ∀ (s t : State), s.Shape → s.Control → step s = .next t → t.Shape ∧ t.Control

/-- Every network built from an admitted configuration meets both invariants. -/
def Obligations.BuiltNetworksMeetTheInvariants : Prop :=
  ∀ (c : Config), c.wf = true → (State.build c).Shape ∧ (State.build c).WordsOk ∧ (State.build c).Control

/-- The reset state meets both invariants. -/
def Obligations.ResetMeetsTheInvariants : Prop :=
  State.reset.Shape ∧ State.reset.WordsOk ∧ State.reset.Control

/-- R261: a `runOnce` never deadlocks. -/
def Obligations.RunOnceNeverDeadlocks : Prop :=
  ∀ (s t : State), s.Shape → s.Control → s.cfg.isRunOnce = true → step s = .next t → t.nstate ≠ .deadlocked

/-- R253, R264: a network has a result exactly when it has ended, and it is Ok with the tapped value, Fault, or Deadlock, as `nstate` says. -/
def Obligations.EndedNetworksHaveExactlyOneResult : Prop :=
  ∀ (s : State), s.Control → s.cfg.isRunOnce = false →
    (s.result = none ↔ s.nstate = .configured ∨ s.nstate = .running) ∧
    (s.nstate = .done → ∃ v, s.lastOut = some v ∧ s.result = some (.ok v)) ∧
    (s.nstate = .faulted → ∃ i c, s.nfault = some (i, c) ∧ s.result = some (.fault i c)) ∧
    (s.nstate = .deadlocked → s.result = some (.deadlock (s.insts.map fun m => (m.estate, m.pc))))

/-- R261: what a `runOnce` returns: nothing before it ends; the contents of the sink, channel 1, exactly when instance 0 has halted; and the fault
of instance 0 exactly when it has faulted. That `nstate` is Done after a halt without output, and so never NoOutput, is the model's reading
(log 7). A `runOnce` is never Deadlocked (RunOnceNeverDeadlocks). -/
def Obligations.RunOnceReturnsItsOutputs : Prop :=
  ∀ (s : State), s.Shape → s.Control → s.cfg.isRunOnce = true → s.nstate ≠ .deadlocked →
    ((s.inst 0).estate = .halted → s.nstate = .done ∧ s.runOnceResult = some (.ok (s.chan 1).buf)) ∧
    ((s.inst 0).estate = .faulted → s.nstate = .faulted ∧
      ∃ r, (s.inst 0).fault = some r ∧ s.runOnceResult = some (.fault r)) ∧
    ((s.nstate = .configured ∨ s.nstate = .running) → s.runOnceResult = none) ∧
    (s.nstate = .done → (s.inst 0).estate = .halted ∧ s.runOnceResult = some (.ok (s.chan 1).buf)) ∧
    (s.nstate = .faulted → (s.inst 0).estate = .faulted ∧
      ∃ r, (s.inst 0).fault = some r ∧ s.runOnceResult = some (.fault r))

/-- R262, R226: load answers ParseFault at the first token outside the Word range, refuses a program longer than MEM_WORDS, and otherwise sets
PROGRAM and nothing else. That the range is checked first (log 17), and that the first such token is recorded, counted from 0 (log 26), are the
model's choices. -/
def Obligations.LoadChecksItsTokens : Prop :=
  ∀ (c : Config) (tokens : List Int),
    (∀ k, loadProgram c tokens = .parseFault k ↔
      (∃ x, tokens[k]? = some x ∧ ¬ fits c.wordBits x) ∧ ∀ j x, j < k → tokens[j]? = some x → fits c.wordBits x) ∧
    ((∀ x ∈ tokens, fits c.wordBits x) →
      (c.memWords < tokens.length → loadProgram c tokens = .tooLong) ∧
      (tokens.length ≤ c.memWords → loadProgram c tokens = .accepted { c with program := tokens }))

/-- R241: the instances, the channels, which channel is whose input and whose output, the terminal instance, and what each channel is seeded with.
`ch[j]` is the input of instance `j`: an IN there takes from it and from no other channel, and Push asks whether that instance has stopped and
whether CHAN_CAP is reached. In single pass channel N is the sink: no instance is its consumer, it is never full, and it is seeded with nothing. That
the host's sink read is a Pop of it, which takes the value out (log 18), in a final `nstate` too (log 25), is the model's reading and choice. -/
def Obligations.NetworkIsWiredAsTheTableSays : Prop :=
  ∀ (s : State) (phases : List Int) (feedback : Bool) (drive : Int) (N : Nat), s.Shape →
    s.cfg.entry = .network phases feedback drive → N = phases.length →
    s.insts.length = N ∧ s.cfg.terminal = N - 1 ∧
    (feedback = true → s.chans.length = N) ∧ (feedback = false → s.chans.length = N + 1) ∧
    (∀ i, s.cfg.outChannel i = ({ s with active := i } : State).outIndex) ∧
    (∀ j, j < N →
      (s.consumerStopped j = true ↔ (s.inst j).estate = .halted ∨ (s.inst j).estate = .faulted) ∧
      (s.full j = true ↔ ∃ k, s.cfg.chanCap = .bounded k ∧ k ≤ (s.chan j).buf.length) ∧
      ∀ d ea v rest, ({ s with active := j } : State).resolve 0 d true = .ok ea → (s.chan j).buf = v :: rest →
        ∃ t, exec (.inp d) { s with active := j } = .next t ∧ (t.chan j).buf = rest ∧
          ∀ k, k ≠ j → t.chan k = s.chan k) ∧
    (∀ i, i + 1 < N → s.cfg.outChannel i = i + 1) ∧
    (feedback = true → s.cfg.outChannel (N - 1) = 0) ∧
    (feedback = false → s.cfg.outChannel (N - 1) = N ∧ s.full N = false ∧ s.consumerStopped N = false ∧
      s.sinkRead = s.pop N) ∧
    (s.nstate = .configured → ∃ t, step s = .next t ∧
      (t.chan 0).buf = [phases.headD 0, drive] ∧ (t.chan 0).closed = !feedback ∧
      (∀ j, 0 < j → j < N → (t.chan j).buf = [phases.getD j 0] ∧ (t.chan j).closed = false) ∧
      (feedback = false → t.chan N = Channel.fresh))
end

