-- ==== Sys2Proof/Laws/Decode.lean ====
section
/-! SUPPORT. What each stage of the decoder accepts. -/

namespace Sys2Proof.Laws

theorem modeOfDigit_eq_some {k : Nat} {m : Mode} : modeOfDigit k = some m ↔ k = m.digit := by
  constructor
  · intro h
    unfold modeOfDigit at h
    split at h <;> simp at h <;> subst h <;> rfl
  · rintro rfl
    cases m <;> rfl

theorem modeOfDigit_eq_none {k : Nat} : modeOfDigit k = none ↔ 3 ≤ k := by
  unfold modeOfDigit
  split <;> simp
  rename_i h0 h1 h2
  rcases k with _ | _ | _ | k <;> simp_all

/-- The loop of R120 goes on past parameter `p` exactly with the mode its digit spells, where that mode may stand there. -/
theorem withMode_eq_instr {n p : Nat} {isDest : Bool} {k : Mode → Decoded} {i : Instr} :
    withMode n p isDest k = .instr i ↔
      ∃ m : Mode, digit (2 + p) n = m.digit ∧ (isDest = true → m.destOk = true) ∧ k m = .instr i := by
  unfold withMode
  cases h : modeOfDigit (digit (2 + p) n) with
  | none =>
    simp only [reduceCtorEq, false_iff, not_exists, not_and]
    intro m hm
    rw [modeOfDigit_eq_some.mpr hm] at h
    exact absurd h (by simp)
  | some m =>
    have hd := modeOfDigit_eq_some.mp h
    by_cases hb : isDest = true ∧ m.destOk = false
    · simp only [hb.1, hb.2, Bool.not_false, Bool.and_self, if_true, reduceCtorEq, false_iff, not_exists, not_and]
      intro m' hm'
      have : m' = m := by
        have := modeOfDigit_eq_some.mpr hm'
        rw [h] at this
        exact (Option.some.inj this).symm
      simp [this, hb.2]
    · have hc : (isDest && !m.destOk) = false := by
        cases hi : isDest <;> cases hm : m.destOk <;> simp_all
      simp only [hc, Bool.false_eq_true, if_false]
      constructor
      · intro hk
        refine ⟨m, hd, fun hi => ?_, hk⟩
        cases hm : m.destOk with
        | true => rfl
        | false => exact absurd ⟨hi, hm⟩ hb
      · rintro ⟨m', hm', _, hk⟩
        have : m' = m := by
          have := modeOfDigit_eq_some.mpr hm'
          rw [h] at this
          exact (Option.some.inj this).symm
        exact this ▸ hk

/-- The last check of R120. -/
theorem finish_eq_instr {x : ExtraDigits} {n params : Nat} {i j : Instr} :
    finish x n params i = .instr j ↔ i = j ∧ (x = .fault → n / 10 ^ (2 + params) = 0) := by
  unfold finish
  cases x with
  | ignore => simp
  | fault =>
    by_cases h : n / 10 ^ (2 + params) = 0 <;> simp [h]

/-- A digit from 3 to 9 at a parameter is BadMode (R116). -/
theorem withMode_badMode {n p : Nat} {isDest : Bool} {k : Mode → Decoded} (h : 3 ≤ digit (2 + p) n) :
    withMode n p isDest k = .reject .badMode (some p) := by
  unfold withMode
  rw [modeOfDigit_eq_none.mpr h]

/-- Immediate at the destination is ImmediateDestination (R117). -/
theorem withMode_immediate {n p : Nat} {k : Mode → Decoded} (h : digit (2 + p) n = 1) :
    withMode n p true k = .reject .immediateDestination (some p) := by
  unfold withMode
  rw [h]
  rfl

/-- A legal digit is passed (R116, R117). -/
theorem withMode_passes {n p : Nat} {isDest : Bool} {k : Mode → Decoded} (h : digit (2 + p) n ≤ 2)
    (hd : isDest = true → digit (2 + p) n ≠ 1) :
    ∃ m : Mode, m.digit = digit (2 + p) n ∧ (isDest = true → m.destOk = true) ∧ withMode n p isDest k = k m := by
  unfold withMode
  generalize digit (2 + p) n = d at *
  have : d = 0 ∨ d = 1 ∨ d = 2 := by omega
  rcases this with rfl | rfl | rfl
  · exact ⟨.position, rfl, by simp [Mode.destOk], by simp [modeOfDigit, Mode.destOk]⟩
  · refine ⟨.immediate, rfl, ?_, ?_⟩ <;> cases isDest <;> simp_all [modeOfDigit]
  · exact ⟨.relative, rfl, by simp [Mode.destOk], by simp [modeOfDigit, Mode.destOk]⟩

/-- The last check of R120, by its two outcomes. -/
theorem finish_cases (x : ExtraDigits) (n params : Nat) (i : Instr) :
    (x = .fault → n / 10 ^ (2 + params) ≠ 0 → finish x n params i = .reject .extraDigits none) ∧
    ((x = .ignore ∨ n / 10 ^ (2 + params) = 0) → finish x n params i = .instr i) := by
  unfold finish
  cases x <;> simp

/-- The table names the ten opcodes (R113). -/
theorem nparams_some {op n : Nat} (h : nparams op = some n) : op ∈ [1, 2, 3, 4, 5, 6, 7, 8, 9, 99] := by
  unfold nparams at h
  split at h <;> simp_all

end Sys2Proof.Laws
end

