-- ==== Sys2Proof/Laws/Memory.lean ====
section
/-! SUPPORT. The laws of one memory: a read after a write, and the canonical form that every operation keeps. -/

namespace Sys2Proof.Laws
open Sys2Proof.Machine

theorem wfFrom_mono {lo lo' : Nat} (h : lo' ≤ lo) {m : Memory} (hm : Memory.wfFrom lo m = true) :
    Memory.wfFrom lo' m = true := by
  cases m with
  | nil => rfl
  | cons e rest =>
    obtain ⟨k, x⟩ := e
    simp only [Memory.wfFrom, Bool.and_eq_true, decide_eq_true_eq] at hm ⊢
    exact ⟨⟨by omega, hm.1.2⟩, hm.2⟩

theorem read_below {lo a : Nat} {m : Memory} (hm : Memory.wfFrom lo m = true) (h : a < lo) :
    Memory.read m a = 0 := by
  induction m generalizing lo with
  | nil => rfl
  | cons e rest ih =>
    obtain ⟨k, x⟩ := e
    simp only [Memory.wfFrom, Bool.and_eq_true, decide_eq_true_eq] at hm
    have hk : k ≠ a := by omega
    simp only [Memory.read, hk, if_false]
    exact ih hm.2 (by omega)

theorem read_write_ne (m : Memory) {a b : Nat} (v : Int) (h : b ≠ a) :
    Memory.read (Memory.write m a v) b = Memory.read m b := by
  induction m with
  | nil =>
    by_cases hv : v = 0 <;> simp [Memory.write, Memory.read, hv, Ne.symm h]
  | cons e rest ih =>
    obtain ⟨k, x⟩ := e
    unfold Memory.write
    split
    · split
      · rfl
      · simp [Memory.read, Ne.symm h]
    · split
      · rename_i _ hak
        subst hak
        split <;> simp [Memory.read, Ne.symm h]
      · simp only [Memory.read, ih]

theorem read_write_self_from {lo : Nat} {m : Memory} (hm : Memory.wfFrom lo m = true) (a : Nat) (v : Int) :
    Memory.read (Memory.write m a v) a = v := by
  induction m generalizing lo with
  | nil => by_cases hv : v = 0 <;> simp [Memory.write, Memory.read, hv]
  | cons e rest ih =>
    obtain ⟨k, x⟩ := e
    simp only [Memory.wfFrom, Bool.and_eq_true, decide_eq_true_eq] at hm
    unfold Memory.write
    split
    · rename_i hak
      split
      · rename_i hv
        have hne : k ≠ a := by omega
        simp only [Memory.read, hne, if_false, hv]
        exact read_below hm.2 (by omega)
      · simp [Memory.read]
    · split
      · rename_i _ hak
        subst hak
        split
        · rename_i hv
          rw [hv]
          exact read_below hm.2 (by omega)
        · simp [Memory.read]
      · rename_i _ hne
        have hk : k ≠ a := fun hc => hne hc.symm
        simp only [Memory.read, hk, if_false]
        exact ih hm.2

theorem read_write_self {m : Memory} (hm : m.wf = true) (a : Nat) (v : Int) :
    Memory.read (Memory.write m a v) a = v := read_write_self_from hm a v

theorem wfFrom_write {lo : Nat} {m : Memory} (hm : Memory.wfFrom lo m = true) {a : Nat} (ha : lo ≤ a) (v : Int) :
    Memory.wfFrom lo (Memory.write m a v) = true := by
  induction m generalizing lo with
  | nil => by_cases hv : v = 0 <;> simp [Memory.write, Memory.wfFrom, hv, ha]
  | cons e rest ih =>
    obtain ⟨k, x⟩ := e
    have hm' := hm
    simp only [Memory.wfFrom, Bool.and_eq_true, decide_eq_true_eq] at hm
    unfold Memory.write
    split
    · rename_i hak
      split
      · exact hm'
      · rename_i hv
        simp only [Memory.wfFrom, Bool.and_eq_true, decide_eq_true_eq]
        exact ⟨⟨ha, hv⟩, ⟨by omega, hm.1.2⟩, hm.2⟩
    · split
      · rename_i _ hak
        subst hak
        split
        · exact wfFrom_mono (by omega) hm.2
        · rename_i hv
          simp only [Memory.wfFrom, Bool.and_eq_true, decide_eq_true_eq]
          exact ⟨⟨ha, hv⟩, hm.2⟩
      · simp only [Memory.wfFrom, Bool.and_eq_true, decide_eq_true_eq]
        exact ⟨hm.1, ih hm.2 (by omega)⟩

/-- A store keeps the canonical form. -/
theorem wf_write {m : Memory} (hm : m.wf = true) (a : Nat) (v : Int) : (Memory.write m a v).wf = true :=
  wfFrom_write hm (Nat.zero_le a) v

theorem wfFrom_ofWords (base : Nat) (ws : List Int) : Memory.wfFrom base (Memory.ofWords base ws) = true := by
  induction ws generalizing base with
  | nil => rfl
  | cons w ws ih =>
    unfold Memory.ofWords
    split
    · exact wfFrom_mono (by omega) (ih (base + 1))
    · rename_i hw
      simp only [Memory.wfFrom, Bool.and_eq_true, decide_eq_true_eq]
      exact ⟨⟨Nat.le_refl _, hw⟩, ih (base + 1)⟩

/-- The memory of a fresh instance is in canonical form. -/
theorem wf_ofWords (ws : List Int) : (Memory.ofWords 0 ws).wf = true := wfFrom_ofWords 0 ws

/-- A cell of the written memory is the one stored or one that was there. -/
theorem mem_write {m : Memory} {a : Nat} {v : Int} {e : Nat × Int} (h : e ∈ Memory.write m a v) :
    e = (a, v) ∨ e ∈ m := by
  induction m with
  | nil =>
    by_cases hv : v = 0 <;> simp [Memory.write, hv] at h
    exact .inl h
  | cons d rest ih =>
    obtain ⟨k, x⟩ := d
    unfold Memory.write at h
    split at h
    · split at h
      · exact .inr h
      · exact (List.mem_cons.mp h).imp id id
    · split at h
      · split at h
        · exact .inr (List.mem_cons_of_mem _ h)
        · exact (List.mem_cons.mp h).imp id (List.mem_cons_of_mem _)
      · rcases List.mem_cons.mp h with h | h
        · exact .inr (h ▸ List.mem_cons_self)
        · exact (ih h).imp id (List.mem_cons_of_mem _)

/-- A cell of a fresh memory is a word of the program at its place. -/
theorem mem_ofWords {base : Nat} {ws : List Int} {e : Nat × Int} (h : e ∈ Memory.ofWords base ws) :
    base ≤ e.1 ∧ e.1 < base + ws.length ∧ e.2 ∈ ws := by
  induction ws generalizing base with
  | nil => simp [Memory.ofWords] at h
  | cons w ws ih =>
    unfold Memory.ofWords at h
    split at h
    · obtain ⟨h1, h2, h3⟩ := ih h
      exact ⟨by omega, by simp only [List.length_cons]; omega, List.mem_cons_of_mem _ h3⟩
    · rcases List.mem_cons.mp h with h | h
      · subst h
        exact ⟨Nat.le_refl _, by simp only [List.length_cons]; omega, List.mem_cons_self⟩
      · obtain ⟨h1, h2, h3⟩ := ih h
        exact ⟨by omega, by simp only [List.length_cons]; omega, List.mem_cons_of_mem _ h3⟩

/-- A read gives 0 or a listed word. -/
theorem read_eq_zero_or_mem (m : Memory) (a : Nat) : Memory.read m a = 0 ∨ (a, Memory.read m a) ∈ m := by
  induction m with
  | nil => exact .inl rfl
  | cons e rest ih =>
    obtain ⟨k, x⟩ := e
    unfold Memory.read
    split
    · rename_i hk
      subst hk
      exact .inr List.mem_cons_self
    · exact ih.imp id (List.mem_cons_of_mem _)

end Sys2Proof.Laws
end

