-- ==== Sys2Proof/Laws/State.lean ====
section
/-! SUPPORT. One lemma per field per update of State, and how the accessors read an updated state. -/

namespace Sys2Proof.Laws
open Sys2Proof.Machine

/-! ### `setMe` -/

@[simp] theorem setMe_cfg (s : State) (m : Inst) : (s.setMe m).cfg = s.cfg := rfl
@[simp] theorem setMe_nstate (s : State) (m : Inst) : (s.setMe m).nstate = s.nstate := rfl
@[simp] theorem setMe_lastOut (s : State) (m : Inst) : (s.setMe m).lastOut = s.lastOut := rfl
@[simp] theorem setMe_nfault (s : State) (m : Inst) : (s.setMe m).nfault = s.nfault := rfl
@[simp] theorem setMe_deadlock (s : State) (m : Inst) : (s.setMe m).deadlock = s.deadlock := rfl
@[simp] theorem setMe_chans (s : State) (m : Inst) : (s.setMe m).chans = s.chans := rfl
@[simp] theorem setMe_active (s : State) (m : Inst) : (s.setMe m).active = s.active := rfl
@[simp] theorem setMe_schedule (s : State) (m : Inst) : (s.setMe m).schedule = s.schedule := rfl
@[simp] theorem setMe_tick (s : State) (m : Inst) : (s.setMe m).tick = s.tick := rfl
@[simp] theorem setMe_count (s : State) (m : Inst) : (s.setMe m).insts.length = s.insts.length := by
  simp [State.setMe]
@[simp] theorem setMe_chan (s : State) (m : Inst) (j : Nat) : (s.setMe m).chan j = s.chan j := rfl
@[simp] theorem setMe_outIndex (s : State) (m : Inst) : (s.setMe m).outIndex = s.outIndex := rfl
@[simp] theorem setMe_wrap (s : State) (m : Inst) (x : Int) : (s.setMe m).wrap x = s.wrap x := rfl

theorem inst_setMe_ne (s : State) (m : Inst) {j : Nat} (h : j ≠ s.active) : (s.setMe m).inst j = s.inst j := by
  simp [State.inst, State.setMe, List.getElem?_set_ne (Ne.symm h)]

/-- Every instance of an updated state: the active one is the new one, the others are as before. -/
theorem inst_setMe (s : State) (m : Inst) (j : Nat) :
    (s.setMe m).inst j = if j = s.active ∧ s.active < s.insts.length then m else s.inst j := by
  by_cases hj : j = s.active
  · subst hj
    by_cases hl : s.active < s.insts.length <;> simp [State.inst, State.setMe, hl]
  · simp [hj, inst_setMe_ne s m hj]

theorem me_setMe {s : State} (h : s.active < s.insts.length) (m : Inst) : (s.setMe m).me = m := by
  simp [State.me, State.inst, State.setMe, h]

theorem inst_setMe_self {s : State} (h : s.active < s.insts.length) (m : Inst) : (s.setMe m).inst s.active = m :=
  me_setMe h m

theorem setMe_setMe (s : State) (m n : Inst) : (s.setMe m).setMe n = s.setMe n := by
  simp [State.setMe]

/-- Writing the active instance back changes nothing. -/
theorem setMe_me (s : State) : s.setMe s.me = s := by
  have : s.insts.set s.active (s.insts.getD s.active (Inst.fresh [])) = s.insts := by
    apply List.ext_getElem?
    intro i
    by_cases hi : s.active = i
    · subst hi
      by_cases hl : s.active < s.insts.length <;> simp [hl]
    · simp [List.getElem?_set_ne hi]
  show { s with insts := _ } = s
  rw [State.me, State.inst, this]

/-- Every instance of the updated state is the new one or an old one. -/
theorem mem_setMe {s : State} {m n : Inst} (h : n ∈ (s.setMe m).insts) : n = m ∨ n ∈ s.insts := by
  rcases List.mem_or_eq_of_mem_set h with h | h
  · exact .inr h
  · exact .inl h

/-! ### `setChan` -/

@[simp] theorem setChan_cfg (s : State) (j : Nat) (c : Channel) : (s.setChan j c).cfg = s.cfg := rfl
@[simp] theorem setChan_nstate (s : State) (j : Nat) (c : Channel) : (s.setChan j c).nstate = s.nstate := rfl
@[simp] theorem setChan_lastOut (s : State) (j : Nat) (c : Channel) : (s.setChan j c).lastOut = s.lastOut := rfl
@[simp] theorem setChan_nfault (s : State) (j : Nat) (c : Channel) : (s.setChan j c).nfault = s.nfault := rfl
@[simp] theorem setChan_deadlock (s : State) (j : Nat) (c : Channel) : (s.setChan j c).deadlock = s.deadlock := rfl
@[simp] theorem setChan_insts (s : State) (j : Nat) (c : Channel) : (s.setChan j c).insts = s.insts := rfl
@[simp] theorem setChan_active (s : State) (j : Nat) (c : Channel) : (s.setChan j c).active = s.active := rfl
@[simp] theorem setChan_schedule (s : State) (j : Nat) (c : Channel) : (s.setChan j c).schedule = s.schedule := rfl
@[simp] theorem setChan_tick (s : State) (j : Nat) (c : Channel) : (s.setChan j c).tick = s.tick := rfl
@[simp] theorem setChan_inst (s : State) (j i : Nat) (c : Channel) : (s.setChan j c).inst i = s.inst i := rfl
@[simp] theorem setChan_me (s : State) (j : Nat) (c : Channel) : (s.setChan j c).me = s.me := rfl
@[simp] theorem setChan_count (s : State) (j : Nat) (c : Channel) : (s.setChan j c).chans.length = s.chans.length := by
  simp [State.setChan]

theorem chan_setChan_ne (s : State) (c : Channel) {j k : Nat} (h : k ≠ j) : (s.setChan j c).chan k = s.chan k := by
  simp [State.chan, State.setChan, List.getElem?_set_ne (Ne.symm h)]

theorem chan_setChan_self {s : State} {j : Nat} (h : j < s.chans.length) (c : Channel) : (s.setChan j c).chan j = c := by
  simp [State.chan, State.setChan, h]

/-- A channel that is not there stays as it reads: empty and open. -/
theorem chan_absent {s : State} {j : Nat} (h : s.chans.length ≤ j) : s.chan j = Channel.fresh := by
  simp [State.chan, List.getElem?_eq_none h]

/-- Every channel of the updated state is the new one or an old one. -/
theorem mem_setChan {s : State} {j : Nat} {c d : Channel} (h : d ∈ (s.setChan j c).chans) : d = c ∨ d ∈ s.chans := by
  rcases List.mem_or_eq_of_mem_set h with h | h
  · exact .inr h
  · exact .inl h

theorem inst_mem {s : State} {i : Nat} (h : i < s.insts.length) : s.inst i ∈ s.insts := by
  simp [State.inst, h]

theorem chan_mem {s : State} {j : Nat} (h : j < s.chans.length) : s.chan j ∈ s.chans := by
  simp [State.chan, h]

/-! ### The memory of the active instance -/

theorem memRead_eq (s : State) (a : Nat) :
    s.memRead a = if s.cfg.memWords ≤ a then 0 else Memory.read s.me.mem a := rfl

/-- Two states with the same MEM_WORDS and the same memory read alike. -/
theorem memRead_congr {s t : State} (hc : t.cfg = s.cfg) (hm : t.me.mem = s.me.mem) (a : Nat) :
    t.memRead a = s.memRead a := by rw [memRead_eq, memRead_eq, hc, hm]

/-! ### `grant` -/

@[simp] theorem grant_cfg (s : State) (i : Nat) : (s.grant i).cfg = s.cfg := rfl
@[simp] theorem grant_nstate (s : State) (i : Nat) : (s.grant i).nstate = s.nstate := rfl
@[simp] theorem grant_lastOut (s : State) (i : Nat) : (s.grant i).lastOut = s.lastOut := rfl
@[simp] theorem grant_nfault (s : State) (i : Nat) : (s.grant i).nfault = s.nfault := rfl
@[simp] theorem grant_deadlock (s : State) (i : Nat) : (s.grant i).deadlock = s.deadlock := rfl
@[simp] theorem grant_insts (s : State) (i : Nat) : (s.grant i).insts = s.insts := rfl
@[simp] theorem grant_chans (s : State) (i : Nat) : (s.grant i).chans = s.chans := rfl
@[simp] theorem grant_active (s : State) (i : Nat) : (s.grant i).active = i := rfl
@[simp] theorem grant_schedule (s : State) (i : Nat) : (s.grant i).schedule = s.schedule.tail := rfl
@[simp] theorem grant_tick (s : State) (i : Nat) : (s.grant i).tick = s.tick + 1 := rfl
@[simp] theorem grant_inst (s : State) (i j : Nat) : (s.grant i).inst j = s.inst j := rfl
@[simp] theorem grant_chan (s : State) (i j : Nat) : (s.grant i).chan j = s.chan j := rfl

/-! ### `start` and `build` -/

@[simp] theorem start_cfg (s : State) : s.start.cfg = s.cfg := rfl
@[simp] theorem start_nstate (s : State) : s.start.nstate = .running := rfl
@[simp] theorem start_lastOut (s : State) : s.start.lastOut = s.lastOut := rfl
@[simp] theorem start_nfault (s : State) : s.start.nfault = s.nfault := rfl
@[simp] theorem start_deadlock (s : State) : s.start.deadlock = s.deadlock := rfl
@[simp] theorem start_insts (s : State) :
    s.start.insts = List.replicate s.cfg.instances (Inst.fresh s.cfg.program) := rfl
@[simp] theorem start_chans (s : State) : s.start.chans = seeded s.cfg := rfl

/-- The reset state is the network built with the default parameters. -/
theorem reset_eq_build : State.reset = State.build Config.default := by decide

end Sys2Proof.Laws
end

