-- ==== Sys2Proof/Laws/Word.lean ====
section
/-! SUPPORT. The ranges of words: `wrap` answers a Word, and the small constants are Words. -/

namespace Sys2Proof.Laws

theorem half_pos (W : Nat) : 0 < half W := by
  simp [half]

theorem modulus_eq_two_half {W : Nat} (h : 1 ≤ W) : modulus W = 2 * half W := by
  obtain ⟨k, rfl⟩ : ∃ k, W = k + 1 := ⟨W - 1, by omega⟩
  simp [modulus, half, pow_succ, mul_comm]

theorem wrap_fits {W : Nat} (h : 1 ≤ W) (x : Int) : fits W (wrap W x) := by
  have hm := modulus_eq_two_half h
  have hp := half_pos W
  have h0 := Int.emod_nonneg (x + half W) (b := modulus W) (by omega)
  have h1 := Int.emod_lt_of_pos (x + half W) (b := modulus W) (by omega)
  unfold wrap
  constructor <;> omega

theorem zero_fits (W : Nat) : fits W 0 := by
  have := half_pos W
  constructor <;> omega

theorem one_fits {W : Nat} (h : 2 ≤ W) : fits W 1 := by
  have h2 : (2 : Nat) ≤ 2 ^ (W - 1) := by
    calc 2 = 2 ^ 1 := rfl
      _ ≤ 2 ^ (W - 1) := Nat.pow_le_pow_right (by decide) (by omega)
  have h3 : (2 : Int) ≤ half W := by unfold half; exact_mod_cast h2
  constructor <;> omega

end Sys2Proof.Laws
end

