-- ==== Sys2Proof/Laws/Ops.lean ====
section
/-! SUPPORT. One lemma per shared operation: the operations as updates of the active instance and of one channel, and what they leave. -/

namespace Sys2Proof.Laws
open Sys2Proof.Machine

/-! ### The fields of an updated instance and channel -/

@[simp] theorem withMem_pc (m : Inst) (x : Memory) : (m.withMem x).pc = m.pc := rfl
@[simp] theorem withMem_rb (m : Inst) (x : Memory) : (m.withMem x).rb = m.rb := rfl
@[simp] theorem withMem_mem (m : Inst) (x : Memory) : (m.withMem x).mem = x := rfl
@[simp] theorem withMem_estate (m : Inst) (x : Memory) : (m.withMem x).estate = m.estate := rfl
@[simp] theorem withMem_fault (m : Inst) (x : Memory) : (m.withMem x).fault = m.fault := rfl
@[simp] theorem withRb_pc (m : Inst) (v : Int) : (m.withRb v).pc = m.pc := rfl
@[simp] theorem withRb_rb (m : Inst) (v : Int) : (m.withRb v).rb = v := rfl
@[simp] theorem withRb_mem (m : Inst) (v : Int) : (m.withRb v).mem = m.mem := rfl
@[simp] theorem withRb_estate (m : Inst) (v : Int) : (m.withRb v).estate = m.estate := rfl
@[simp] theorem withRb_fault (m : Inst) (v : Int) : (m.withRb v).fault = m.fault := rfl
@[simp] theorem withEState_pc (m : Inst) (e : EState) : (m.withEState e).pc = m.pc := rfl
@[simp] theorem withEState_rb (m : Inst) (e : EState) : (m.withEState e).rb = m.rb := rfl
@[simp] theorem withEState_mem (m : Inst) (e : EState) : (m.withEState e).mem = m.mem := rfl
@[simp] theorem withEState_estate (m : Inst) (e : EState) : (m.withEState e).estate = e := rfl
@[simp] theorem withEState_fault (m : Inst) (e : EState) : (m.withEState e).fault = m.fault := rfl
@[simp] theorem completeAt_pc (m : Inst) (v : Int) : (m.completeAt v).pc = v := rfl
@[simp] theorem completeAt_rb (m : Inst) (v : Int) : (m.completeAt v).rb = m.rb := rfl
@[simp] theorem completeAt_mem (m : Inst) (v : Int) : (m.completeAt v).mem = m.mem := rfl
@[simp] theorem completeAt_estate (m : Inst) (v : Int) : (m.completeAt v).estate = .running := rfl
@[simp] theorem completeAt_fault (m : Inst) (v : Int) : (m.completeAt v).fault = m.fault := rfl
@[simp] theorem faultedBy_pc (m : Inst) (r : FaultRec) : (m.faultedBy r).pc = m.pc := rfl
@[simp] theorem faultedBy_rb (m : Inst) (r : FaultRec) : (m.faultedBy r).rb = m.rb := rfl
@[simp] theorem faultedBy_mem (m : Inst) (r : FaultRec) : (m.faultedBy r).mem = m.mem := rfl
@[simp] theorem faultedBy_estate (m : Inst) (r : FaultRec) : (m.faultedBy r).estate = .faulted := rfl
@[simp] theorem faultedBy_fault (m : Inst) (r : FaultRec) : (m.faultedBy r).fault = some r := rfl
@[simp] theorem withBuf_buf (c : Channel) (b : List Int) : (c.withBuf b).buf = b := rfl
@[simp] theorem withBuf_closed (c : Channel) (b : List Int) : (c.withBuf b).closed = c.closed := rfl
@[simp] theorem shut_buf (c : Channel) : c.shut.buf = c.buf := rfl
@[simp] theorem shut_closed (c : Channel) : c.shut.closed = true := rfl

/-! ### Operations as one update of the active instance -/

theorem memWrite_advance {s : State} (h : s.active < s.insts.length) (ea : Nat) (v : Int) (n : Nat) :
    (s.memWrite ea v).advance n =
      s.setMe ((s.me.withMem (Memory.write s.me.mem ea v)).completeAt (s.wrap (s.me.pc + 1 + (n : Int)))) := by
  simp [State.memWrite, State.advance, State.goTo, me_setMe h, setMe_setMe]

theorem setRb_advance {s : State} (h : s.active < s.insts.length) (v : Int) (n : Nat) :
    (s.setRb v).advance n =
      s.setMe ((s.me.withRb v).completeAt (s.wrap (s.me.pc + 1 + (n : Int)))) := by
  simp [State.setRb, State.advance, State.goTo, me_setMe h, setMe_setMe]

theorem advance_eq (s : State) (n : Nat) :
    s.advance n = s.setMe (s.me.completeAt (s.wrap (s.me.pc + 1 + (n : Int)))) := rfl

/-! ### `goTo`, `advance`, `wait` -/

@[simp] theorem goTo_cfg (s : State) (v : Int) : (s.goTo v).cfg = s.cfg := rfl
@[simp] theorem goTo_nstate (s : State) (v : Int) : (s.goTo v).nstate = s.nstate := rfl
@[simp] theorem goTo_lastOut (s : State) (v : Int) : (s.goTo v).lastOut = s.lastOut := rfl
@[simp] theorem goTo_nfault (s : State) (v : Int) : (s.goTo v).nfault = s.nfault := rfl
@[simp] theorem goTo_chans (s : State) (v : Int) : (s.goTo v).chans = s.chans := rfl
@[simp] theorem goTo_active (s : State) (v : Int) : (s.goTo v).active = s.active := rfl
theorem me_goTo {s : State} (h : s.active < s.insts.length) (v : Int) :
    (s.goTo v).me = s.me.completeAt v := me_setMe h _

@[simp] theorem advance_cfg (s : State) (n : Nat) : (s.advance n).cfg = s.cfg := rfl
@[simp] theorem advance_nstate (s : State) (n : Nat) : (s.advance n).nstate = s.nstate := rfl
@[simp] theorem advance_lastOut (s : State) (n : Nat) : (s.advance n).lastOut = s.lastOut := rfl
@[simp] theorem advance_nfault (s : State) (n : Nat) : (s.advance n).nfault = s.nfault := rfl
@[simp] theorem advance_chans (s : State) (n : Nat) : (s.advance n).chans = s.chans := rfl
@[simp] theorem advance_active (s : State) (n : Nat) : (s.advance n).active = s.active := rfl
theorem me_advance {s : State} (h : s.active < s.insts.length) (n : Nat) :
    (s.advance n).me = s.me.completeAt (s.wrap (s.me.pc + 1 + (n : Int))) := me_setMe h _

@[simp] theorem wait_cfg (s : State) (e : EState) : (s.wait e).cfg = s.cfg := rfl
@[simp] theorem wait_nstate (s : State) (e : EState) : (s.wait e).nstate = s.nstate := rfl
@[simp] theorem wait_chans (s : State) (e : EState) : (s.wait e).chans = s.chans := rfl
@[simp] theorem wait_active (s : State) (e : EState) : (s.wait e).active = s.active := rfl
theorem me_wait {s : State} (h : s.active < s.insts.length) (e : EState) :
    (s.wait e).me = s.me.withEState e := me_setMe h _

/-! ### `tap` -/

@[simp] theorem tap_cfg (s : State) (v : Int) : (s.tap v).cfg = s.cfg := by unfold State.tap; split <;> rfl
@[simp] theorem tap_nstate (s : State) (v : Int) : (s.tap v).nstate = s.nstate := by unfold State.tap; split <;> rfl
@[simp] theorem tap_nfault (s : State) (v : Int) : (s.tap v).nfault = s.nfault := by unfold State.tap; split <;> rfl
@[simp] theorem tap_deadlock (s : State) (v : Int) : (s.tap v).deadlock = s.deadlock := by unfold State.tap; split <;> rfl
@[simp] theorem tap_insts (s : State) (v : Int) : (s.tap v).insts = s.insts := by unfold State.tap; split <;> rfl
@[simp] theorem tap_chans (s : State) (v : Int) : (s.tap v).chans = s.chans := by unfold State.tap; split <;> rfl
@[simp] theorem tap_active (s : State) (v : Int) : (s.tap v).active = s.active := by unfold State.tap; split <;> rfl
@[simp] theorem tap_schedule (s : State) (v : Int) : (s.tap v).schedule = s.schedule := by unfold State.tap; split <;> rfl
@[simp] theorem tap_tick (s : State) (v : Int) : (s.tap v).tick = s.tick := by unfold State.tap; split <;> rfl
theorem tap_lastOut (s : State) (v : Int) :
    (s.tap v).lastOut = if s.active = s.cfg.terminal then some v else s.lastOut := by
  unfold State.tap; split <;> rfl
@[simp] theorem tap_inst (s : State) (v : Int) (j : Nat) : (s.tap v).inst j = s.inst j := by
  simp [State.inst]
theorem tap_me (s : State) (v : Int) : (s.tap v).me = s.me := by
  simp [State.me]
@[simp] theorem tap_chan (s : State) (v : Int) (j : Nat) : (s.tap v).chan j = s.chan j := by
  simp [State.chan]

/-! ### `raise` -/

@[simp] theorem raise_cfg (s : State) (f : FaultInfo) : (s.raise f).cfg = s.cfg := rfl
@[simp] theorem raise_nstate (s : State) (f : FaultInfo) : (s.raise f).nstate = .faulted := rfl
@[simp] theorem raise_lastOut (s : State) (f : FaultInfo) : (s.raise f).lastOut = s.lastOut := rfl
@[simp] theorem raise_nfault (s : State) (f : FaultInfo) :
    (s.raise f).nfault = some (s.active, .recorded (s.faultRec f)) := rfl
@[simp] theorem raise_deadlock (s : State) (f : FaultInfo) : (s.raise f).deadlock = s.deadlock := rfl
@[simp] theorem raise_active (s : State) (f : FaultInfo) : (s.raise f).active = s.active := rfl
@[simp] theorem raise_schedule (s : State) (f : FaultInfo) : (s.raise f).schedule = s.schedule := rfl
@[simp] theorem raise_tick (s : State) (f : FaultInfo) : (s.raise f).tick = s.tick := rfl
theorem raise_insts (s : State) (f : FaultInfo) :
    (s.raise f).insts = (s.setMe (s.me.faultedBy (s.faultRec f))).insts := rfl
theorem raise_chans (s : State) (f : FaultInfo) : (s.raise f).chans = (s.close s.outIndex).chans := rfl
theorem raise_chan (s : State) (f : FaultInfo) (j : Nat) : (s.raise f).chan j = (s.close s.outIndex).chan j := rfl
theorem raise_inst (s : State) (f : FaultInfo) (j : Nat) :
    (s.raise f).inst j = (s.setMe (s.me.faultedBy (s.faultRec f))).inst j := rfl
theorem me_raise {s : State} (h : s.active < s.insts.length) (f : FaultInfo) :
    (s.raise f).me = s.me.faultedBy (s.faultRec f) := me_setMe h _

/-! ### `halt` -/

/-- What `endByHalt` does to the network's registers (R248, R249); it touches nothing else. -/
theorem endByHalt_cases (s : State) :
    (s.active ≠ s.cfg.terminal ∧ s.endByHalt = s) ∨
    (s.active = s.cfg.terminal ∧ (s.lastOut.isSome = true ∨ s.cfg.isRunOnce = true) ∧
      s.endByHalt = { s with nstate := .done }) ∨
    (s.active = s.cfg.terminal ∧ s.lastOut = none ∧ s.cfg.isRunOnce = false ∧
      s.endByHalt = { s with nstate := .faulted, nfault := some (s.active, .noOutput) }) := by
  unfold State.endByHalt
  split
  · rename_i h
    split
    · rename_i h2
      exact .inr (.inl ⟨h, by simpa using h2, rfl⟩)
    · rename_i h2
      simp only [Bool.or_eq_true, not_or, Bool.not_eq_true, Option.isSome_eq_false_iff,
        Option.isNone_iff_eq_none] at h2
      exact .inr (.inr ⟨h, h2.1, h2.2, rfl⟩)
  · rename_i h
    exact .inl ⟨h, rfl⟩

@[simp] theorem endByHalt_cfg (s : State) : s.endByHalt.cfg = s.cfg := by
  rcases endByHalt_cases s with ⟨_, h⟩ | ⟨_, _, h⟩ | ⟨_, _, _, h⟩ <;> rw [h]
@[simp] theorem endByHalt_lastOut (s : State) : s.endByHalt.lastOut = s.lastOut := by
  rcases endByHalt_cases s with ⟨_, h⟩ | ⟨_, _, h⟩ | ⟨_, _, _, h⟩ <;> rw [h]
@[simp] theorem endByHalt_deadlock (s : State) : s.endByHalt.deadlock = s.deadlock := by
  rcases endByHalt_cases s with ⟨_, h⟩ | ⟨_, _, h⟩ | ⟨_, _, _, h⟩ <;> rw [h]
@[simp] theorem endByHalt_insts (s : State) : s.endByHalt.insts = s.insts := by
  rcases endByHalt_cases s with ⟨_, h⟩ | ⟨_, _, h⟩ | ⟨_, _, _, h⟩ <;> rw [h]
@[simp] theorem endByHalt_chans (s : State) : s.endByHalt.chans = s.chans := by
  rcases endByHalt_cases s with ⟨_, h⟩ | ⟨_, _, h⟩ | ⟨_, _, _, h⟩ <;> rw [h]
@[simp] theorem endByHalt_active (s : State) : s.endByHalt.active = s.active := by
  rcases endByHalt_cases s with ⟨_, h⟩ | ⟨_, _, h⟩ | ⟨_, _, _, h⟩ <;> rw [h]
@[simp] theorem endByHalt_schedule (s : State) : s.endByHalt.schedule = s.schedule := by
  rcases endByHalt_cases s with ⟨_, h⟩ | ⟨_, _, h⟩ | ⟨_, _, _, h⟩ <;> rw [h]
@[simp] theorem endByHalt_tick (s : State) : s.endByHalt.tick = s.tick := by
  rcases endByHalt_cases s with ⟨_, h⟩ | ⟨_, _, h⟩ | ⟨_, _, _, h⟩ <;> rw [h]

@[simp] theorem halt_cfg (s : State) : s.halt.cfg = s.cfg := by simp [State.halt, State.close]
@[simp] theorem halt_lastOut (s : State) : s.halt.lastOut = s.lastOut := by simp [State.halt, State.close]
@[simp] theorem halt_deadlock (s : State) : s.halt.deadlock = s.deadlock := by simp [State.halt, State.close]
@[simp] theorem halt_active (s : State) : s.halt.active = s.active := by simp [State.halt, State.close]
@[simp] theorem halt_schedule (s : State) : s.halt.schedule = s.schedule := by simp [State.halt, State.close]
@[simp] theorem halt_tick (s : State) : s.halt.tick = s.tick := by simp [State.halt, State.close]
theorem halt_insts (s : State) : s.halt.insts = (s.setMe (s.me.withEState .halted)).insts := by
  simp [State.halt, State.close]
theorem halt_chans (s : State) : s.halt.chans = (s.close s.outIndex).chans := by
  simp [State.halt, State.close, State.setChan, State.chan]
theorem halt_chan (s : State) (j : Nat) : s.halt.chan j = (s.close s.outIndex).chan j := by
  simp [State.chan, halt_chans]
theorem halt_inst (s : State) (j : Nat) : s.halt.inst j = (s.setMe (s.me.withEState .halted)).inst j := by
  simp [State.inst, halt_insts]
theorem me_halt {s : State} (h : s.active < s.insts.length) : s.halt.me = s.me.withEState .halted := by
  rw [State.me, halt_active, halt_inst, inst_setMe_self h]

/-! ### `close`, `pop`, `push` -/

theorem chan_close_self {s : State} {j : Nat} (h : j < s.chans.length) :
    (s.close j).chan j = (s.chan j).shut := chan_setChan_self h _

theorem chan_close_ne (s : State) {j k : Nat} (h : k ≠ j) : (s.close j).chan k = s.chan k := chan_setChan_ne s _ h

/-- A Close changes no value of any channel. -/
theorem buf_close (s : State) (j k : Nat) : ((s.close j).chan k).buf = (s.chan k).buf := by
  by_cases hk : k = j
  · subst hk
    by_cases hl : k < s.chans.length
    · rw [chan_close_self hl]; rfl
    · rw [chan_absent (by simpa [State.close] using hl), chan_absent (by simpa using hl)]
  · rw [chan_close_ne s hk]

/-- Changing the values of a channel closes and opens none. -/
theorem closed_setChan_withBuf (s : State) (k : Nat) (b : List Int) (j : Nat) :
    ((s.setChan k ((s.chan k).withBuf b)).chan j).closed = (s.chan j).closed := by
  by_cases hk : j = k
  · subst hk
    by_cases hl : j < s.chans.length
    · rw [chan_setChan_self hl, withBuf_closed]
    · rw [chan_absent (by simpa using hl), chan_absent (by simpa using hl)]
  · rw [chan_setChan_ne _ _ hk]

/-- What Pop answers (R85). -/
theorem pop_cases (s : State) (j : Nat) :
    (∃ v rest, (s.chan j).buf = v :: rest ∧ s.pop j = .value v (s.setChan j ((s.chan j).withBuf rest))) ∨
    ((s.chan j).buf = [] ∧ (s.chan j).closed = true ∧ s.pop j = .endOfStream) ∨
    ((s.chan j).buf = [] ∧ (s.chan j).closed = false ∧ s.pop j = .empty) := by
  unfold State.pop
  cases hb : (s.chan j).buf with
  | cons v rest => exact .inl ⟨v, rest, rfl, rfl⟩
  | nil => cases hc : (s.chan j).closed <;> simp

/-- What Push answers (R86). -/
theorem push_cases (s : State) (j : Nat) (v : Int) :
    (s.consumerStopped j = true ∧ s.push j v = .accepted s) ∨
    (s.consumerStopped j = false ∧ s.full j = true ∧ s.push j v = .full) ∨
    (s.consumerStopped j = false ∧ s.full j = false ∧
      s.push j v = .accepted (s.setChan j ((s.chan j).withBuf ((s.chan j).buf ++ [v])))) := by
  unfold State.push
  cases hc : s.consumerStopped j <;> cases hf : s.full j <;> simp

end Sys2Proof.Laws
end

