-- ==== Sys2Proof/Laws/Operands.lean ====
section
/-! SUPPORT. What the resolver and the operand reads answer. -/

namespace Sys2Proof.Laws
open Sys2Proof.Machine

/-- A destination resolves below MEM_WORDS only (R78). -/
theorem resolve_dest_lt {s : State} {p : Nat} {m : Mode} {ea : Nat} (h : s.resolve p m true = .ok ea) :
    ea < s.cfg.memWords := by
  unfold State.resolve at h
  split at h
  · exact absurd h (by simp)
  · simp only [Bool.true_and, decide_eq_true_eq] at h
    split at h
    · exact absurd h (by simp)
    · split at h
      · exact absurd h (by simp)
      · rename_i hm
        have : (s.effective m (s.slot p).toNat).toNat = ea := by simpa using h
        omega

theorem src1_ok {s : State} {a : Mode} {ea : Nat} (h : s.resolve 0 a false = .ok ea) :
    s.src1 a = .ok (s.memRead ea) := by simp [State.src1, h]

theorem src2_ok {s : State} {a b : Mode} {ea0 ea1 : Nat} (h0 : s.resolve 0 a false = .ok ea0)
    (h1 : s.resolve 1 b false = .ok ea1) : s.src2 a b = .ok (s.memRead ea0, s.memRead ea1) := by
  simp [State.src2, h0, h1]

theorem src2dst_ok {s : State} {a b d : Mode} {ea0 ea1 ea2 : Nat} (h0 : s.resolve 0 a false = .ok ea0)
    (h1 : s.resolve 1 b false = .ok ea1) (h2 : s.resolve 2 d true = .ok ea2) :
    s.src2dst a b d = .ok (s.memRead ea0, s.memRead ea1, ea2) := by
  simp [State.src2dst, h0, h1, h2]

/-- Where the operands of a computing instruction are there, its destination resolved and its values were read from memory. -/
theorem src2dst_inv {s : State} {a b d : Mode} {x y : Int} {ea : Nat} (h : s.src2dst a b d = .ok (x, y, ea)) :
    s.resolve 2 d true = .ok ea ∧ (∃ ea0, x = s.memRead ea0) ∧ ∃ ea1, y = s.memRead ea1 := by
  unfold State.src2dst at h
  split at h
  · exact absurd h (by simp)
  · split at h
    · exact absurd h (by simp)
    · split at h
      · exact absurd h (by simp)
      · rename_i h2
        simp only [Except.ok.injEq, Prod.mk.injEq] at h
        obtain ⟨hx, hy, he⟩ := h
        exact ⟨he ▸ h2, ⟨_, hx.symm⟩, ⟨_, hy.symm⟩⟩

theorem src2_inv {s : State} {a b : Mode} {x y : Int} (h : s.src2 a b = .ok (x, y)) :
    (∃ ea0, x = s.memRead ea0) ∧ ∃ ea1, y = s.memRead ea1 := by
  unfold State.src2 at h
  split at h
  · exact absurd h (by simp)
  · split at h
    · exact absurd h (by simp)
    · simp only [Except.ok.injEq, Prod.mk.injEq] at h
      exact ⟨⟨_, h.1.symm⟩, ⟨_, h.2.symm⟩⟩

theorem src1_inv {s : State} {a : Mode} {x : Int} (h : s.src1 a = .ok x) : ∃ ea, x = s.memRead ea := by
  unfold State.src1 at h
  split at h
  · exact absurd h (by simp)
  · simp only [Except.ok.injEq] at h
    exact ⟨_, h.symm⟩

end Sys2Proof.Laws
end

