-- ==== Sys2Proof/Laws/Exec.lean ====
section
/-!
SUPPORT. Everything an instruction can do, said once: `exec` always answers a next state, and that state is one of the cases of `Effect`. Proofs about
what instructions never do go by cases on it.
-/

namespace Sys2Proof.Laws
open Sys2Proof.Machine

/-- The next states of an instruction. -/
inductive Effect (s : State) : Instr → State → Prop where
  /-- It took a fault. -/
  | raised (i : Instr) (f : FaultInfo) (h : i ≠ .halt) : Effect s i (s.raise f)
  /-- ADD, MUL, LT or EQ stored a word. -/
  | stored (i : Instr) (a b d : Mode) (x y v : Int) (ea : Nat)
      (form : (i = .add a b d ∧ v = s.wrap (x + y)) ∨ (i = .mul a b d ∧ v = s.wrap (x * y)) ∨
        (i = .lt a b d ∧ v = ltWord x y) ∨ (i = .eq a b d ∧ v = eqWord x y))
      (ops : s.src2dst a b d = .ok (x, y, ea)) : Effect s i ((s.memWrite ea v).advance 3)
  /-- IN stored the oldest value of its channel. -/
  | input (d : Mode) (ea : Nat) (v : Int) (rest : List Int) (dest : s.resolve 0 d true = .ok ea)
      (value : (s.chan s.active).buf = v :: rest) :
      Effect s (.inp d) (((s.setChan s.active ((s.chan s.active).withBuf rest)).memWrite ea v).advance 1)
  /-- IN waits. -/
  | inputWaits (d : Mode) (empty : (s.chan s.active).buf = []) (isOpen : (s.chan s.active).closed = false) :
      Effect s (.inp d) (s.wait .waitingOnInput)
  /-- OUT's value was dropped: its consumer has stopped. -/
  | dropped (a : Mode) (v : Int) (operand : s.src1 a = .ok v) (stopped : s.consumerStopped s.outIndex = true) :
      Effect s (.out a) ((s.advance 1).tap v)
  /-- OUT's value was appended. -/
  | pushed (a : Mode) (v : Int) (operand : s.src1 a = .ok v) (live : s.consumerStopped s.outIndex = false)
      (room : s.full s.outIndex = false) :
      Effect s (.out a)
        (((s.setChan s.outIndex ((s.chan s.outIndex).withBuf ((s.chan s.outIndex).buf ++ [v]))).advance 1).tap v)
  /-- OUT waits. -/
  | outputWaits (a : Mode) (live : s.consumerStopped s.outIndex = false) (full : s.full s.outIndex = true) :
      Effect s (.out a) (s.wait .waitingOnOutput)
  /-- JT or JF was taken. -/
  | jumped (i : Instr) (a b : Mode) (x y : Int) (form : (i = .jt a b ∧ x ≠ 0) ∨ (i = .jf a b ∧ x = 0))
      (ops : s.src2 a b = .ok (x, y)) : Effect s i (s.goTo y)
  /-- JT or JF was not taken. -/
  | passed (i : Instr) (a b : Mode) (x y : Int) (form : (i = .jt a b ∧ x = 0) ∨ (i = .jf a b ∧ x ≠ 0))
      (ops : s.src2 a b = .ok (x, y)) : Effect s i (s.advance 2)
  /-- ARB moved the relative base. -/
  | based (a : Mode) (x : Int) (operand : s.src1 a = .ok x) :
      Effect s (.arb a) ((s.setRb (s.wrap (s.me.rb + x))).advance 1)
  /-- HALT. -/
  | halted : Effect s .halt s.halt

theorem compute_cases (s : State) (a b d : Mode) (f : Int → Int → Int) :
    (∃ e, s.compute a b d f = .next (s.raise e)) ∨
    ∃ x y ea, s.src2dst a b d = .ok (x, y, ea) ∧ s.compute a b d f = .next ((s.memWrite ea (f x y)).advance 3) := by
  unfold State.compute
  cases h : s.src2dst a b d with
  | error e => exact .inl ⟨e, rfl⟩
  | ok r => exact .inr ⟨r.1, r.2.1, r.2.2, rfl, rfl⟩

/-- Every instruction answers a next state, and it is one of `Effect`'s. -/
theorem exec_effect (i : Instr) (s : State) : ∃ t, exec i s = .next t ∧ Effect s i t := by
  cases i with
  | add a b d =>
    rcases compute_cases s a b d (fun x y => s.wrap (x + y)) with ⟨e, h⟩ | ⟨x, y, ea, ho, h⟩
    · exact ⟨_, h, .raised _ e (by simp)⟩
    · exact ⟨_, h, .stored _ a b d x y _ ea (.inl ⟨rfl, rfl⟩) ho⟩
  | mul a b d =>
    rcases compute_cases s a b d (fun x y => s.wrap (x * y)) with ⟨e, h⟩ | ⟨x, y, ea, ho, h⟩
    · exact ⟨_, h, .raised _ e (by simp)⟩
    · exact ⟨_, h, .stored _ a b d x y _ ea (.inr (.inl ⟨rfl, rfl⟩)) ho⟩
  | lt a b d =>
    rcases compute_cases s a b d ltWord with ⟨e, h⟩ | ⟨x, y, ea, ho, h⟩
    · exact ⟨_, h, .raised _ e (by simp)⟩
    · exact ⟨_, h, .stored _ a b d x y _ ea (.inr (.inr (.inl ⟨rfl, rfl⟩))) ho⟩
  | eq a b d =>
    rcases compute_cases s a b d eqWord with ⟨e, h⟩ | ⟨x, y, ea, ho, h⟩
    · exact ⟨_, h, .raised _ e (by simp)⟩
    · exact ⟨_, h, .stored _ a b d x y _ ea (.inr (.inr (.inr ⟨rfl, rfl⟩))) ho⟩
  | inp d =>
    show ∃ t, execIn d s = .next t ∧ _
    unfold execIn
    cases hr : s.resolve 0 d true with
    | error e => exact ⟨_, rfl, .raised _ e (by simp)⟩
    | ok ea =>
      rcases pop_cases s s.active with ⟨v, rest, hb, hp⟩ | ⟨hb, hc, hp⟩ | ⟨hb, hc, hp⟩ <;> simp only [hp]
      · exact ⟨_, rfl, .input d ea v rest hr hb⟩
      · exact ⟨_, rfl, .raised _ _ (by simp)⟩
      · exact ⟨_, rfl, .inputWaits d hb hc⟩
  | out a =>
    show ∃ t, execOut a s = .next t ∧ _
    unfold execOut
    cases hr : s.src1 a with
    | error e => exact ⟨_, rfl, .raised _ e (by simp)⟩
    | ok v =>
      rcases push_cases s s.outIndex v with ⟨hs, hp⟩ | ⟨hs, hf, hp⟩ | ⟨hs, hf, hp⟩ <;> simp only [hp]
      · exact ⟨_, rfl, .dropped a v hr hs⟩
      · exact ⟨_, rfl, .outputWaits a hs hf⟩
      · exact ⟨_, rfl, .pushed a v hr hs hf⟩
  | jt a b =>
    show ∃ t, execJt a b s = .next t ∧ _
    unfold execJt
    cases hr : s.src2 a b with
    | error e => exact ⟨_, rfl, .raised _ e (by simp)⟩
    | ok r =>
      obtain ⟨x, y⟩ := r
      by_cases hx : x = 0
      · exact ⟨_, by simp [nonZero, hx], .passed _ a b x y (.inl ⟨rfl, hx⟩) hr⟩
      · exact ⟨_, by simp [nonZero, hx], .jumped _ a b x y (.inl ⟨rfl, hx⟩) hr⟩
  | jf a b =>
    show ∃ t, execJf a b s = .next t ∧ _
    unfold execJf
    cases hr : s.src2 a b with
    | error e => exact ⟨_, rfl, .raised _ e (by simp)⟩
    | ok r =>
      obtain ⟨x, y⟩ := r
      by_cases hx : x = 0
      · exact ⟨_, by simp [nonZero, hx], .jumped _ a b x y (.inr ⟨rfl, hx⟩) hr⟩
      · exact ⟨_, by simp [nonZero, hx], .passed _ a b x y (.inr ⟨rfl, hx⟩) hr⟩
  | arb a =>
    show ∃ t, execArb a s = .next t ∧ _
    unfold execArb
    cases hr : s.src1 a with
    | error e => exact ⟨_, rfl, .raised _ e (by simp)⟩
    | ok x => exact ⟨_, rfl, .based a x hr⟩
  | halt => exact ⟨_, rfl, .halted⟩

/-- The inversion lemma of `exec`. -/
theorem effect_of_exec {i : Instr} {s t : State} (h : exec i s = .next t) : Effect s i t := by
  obtain ⟨t', h', he⟩ := exec_effect i s
  rw [h] at h'
  cases h'
  exact he

/-- Everything a step of the active instance can do: take a fault at fetch or decode, or an instruction's effect. -/
theorem runActive_cases (s : State) :
    ∃ t, s.runActive = .next t ∧ ((∃ f, s.fetch = .error f ∧ t = s.raise f) ∨ ∃ i, s.fetch = .ok i ∧ Effect s i t) := by
  unfold State.runActive
  cases h : s.fetch with
  | error f => exact ⟨_, rfl, .inl ⟨f, rfl, rfl⟩⟩
  | ok i =>
    obtain ⟨t, ht, he⟩ := exec_effect i s
    exact ⟨t, ht, .inr ⟨i, rfl, he⟩⟩

/-- An instruction changes no instance but the active one (R46). -/
theorem effect_others {s t : State} {i : Instr} (h : Effect s i t) {j : Nat} (hj : j ≠ s.active) :
    t.inst j = s.inst j := by
  cases h <;>
    simp [State.memWrite, State.advance, State.goTo, State.wait, State.setRb, inst_setMe, raise_inst, halt_inst, hj]

/-- No instruction changes what `Elsewhere` names. -/
theorem effect_elsewhere {s t : State} {i : Instr} (h : Effect s i t) : s.Elsewhere t := by
  refine ⟨?_, ?_, ?_, ?_, ?_, ?_, fun j hj => effect_others h hj⟩ <;> cases h <;>
    simp [State.memWrite, State.advance, State.goTo, State.wait, State.setRb, raise_insts, halt_insts]

/-- A fault at fetch or decode is a fault that an instruction could take: every step of the active instance is one of `Effect`'s. -/
theorem effect_of_runActive {s t : State} (h : s.runActive = .next t) : ∃ i, Effect s i t := by
  obtain ⟨t', ht, hc⟩ := runActive_cases s
  rw [h] at ht
  cases ht
  rcases hc with ⟨f, _, rfl⟩ | ⟨i, _, he⟩
  · exact ⟨.arb .position, .raised _ f (by simp)⟩
  · exact ⟨i, he⟩

/-- A step of the active instance leaves everything `Elsewhere` names. -/
theorem runActive_elsewhere {s t : State} (h : s.runActive = .next t) : s.Elsewhere t := by
  obtain ⟨i, he⟩ := effect_of_runActive h
  exact effect_elsewhere he

/-- How an instruction ends: in a fault, in the halt, or neither; and then it leaves the network's registers, the instance's record and every
`closed`, and it waits for output only where its channel is full. -/
theorem effect_ends {s t : State} {i : Instr} (ha : s.active < s.insts.length) (h : Effect s i t) :
    (t.me.estate = .faulted ∧ ∃ f, t = s.raise f) ∨
    (t.me.estate = .halted ∧ i = .halt ∧ t = s.halt) ∨
    (t.me.estate.final = false ∧ t.nstate = s.nstate ∧ t.nfault = s.nfault ∧ t.me.fault = s.me.fault ∧
      (t.me.estate = .waitingOnOutput → s.full s.outIndex = true) ∧ ∀ j, (t.chan j).closed = (s.chan j).closed) := by
  cases h with
  | raised i f h => exact .inl ⟨by rw [me_raise ha, faultedBy_estate], f, rfl⟩
  | halted => exact .inr (.inl ⟨by rw [me_halt ha, withEState_estate], rfl, rfl⟩)
  | stored i a b d x y v ea form ops =>
    rw [memWrite_advance ha]
    exact .inr (.inr (by simp [me_setMe ha, EState.final]))
  | input d ea v rest dest value =>
    have ha' : (s.setChan s.active ((s.chan s.active).withBuf rest)).active <
        (s.setChan s.active ((s.chan s.active).withBuf rest)).insts.length := ha
    rw [memWrite_advance ha', me_setMe ha']
    exact .inr (.inr (by simp [closed_setChan_withBuf, EState.final]))
  | inputWaits => exact .inr (.inr (by simp [State.wait, me_setMe ha, EState.final]))
  | dropped a v =>
    rw [tap_me, advance_eq, me_setMe ha]
    exact .inr (.inr (by simp [EState.final]))
  | pushed a v =>
    have ha' : (s.setChan s.outIndex ((s.chan s.outIndex).withBuf ((s.chan s.outIndex).buf ++ [v]))).active <
        (s.setChan s.outIndex ((s.chan s.outIndex).withBuf ((s.chan s.outIndex).buf ++ [v]))).insts.length := ha
    rw [tap_me, advance_eq, me_setMe ha']
    exact .inr (.inr (by simp [closed_setChan_withBuf, EState.final]))
  | outputWaits a live full => exact .inr (.inr (by simp [State.wait, me_setMe ha, full, EState.final]))
  | jumped => exact .inr (.inr (by simp [State.goTo, me_setMe ha, EState.final]))
  | passed => exact .inr (.inr (by rw [advance_eq]; simp [me_setMe ha, EState.final]))
  | based => exact .inr (.inr (by rw [setRb_advance ha]; simp [me_setMe ha, EState.final]))

/-- No instruction adds or drops a channel. -/
theorem effect_chanCount {s t : State} {i : Instr} (h : Effect s i t) : t.chans.length = s.chans.length := by
  cases h <;>
    simp [State.memWrite, State.advance, State.goTo, State.wait, State.setRb, halt_chans, State.close, State.raise,
      State.endByFault]

/-- Every instance after an instruction is the active one or one that was there before. -/
theorem mem_insts_of_elsewhere {s t : State} (h : s.Elsewhere t) {m : Inst} (hm : m ∈ t.insts) :
    m = t.me ∨ m ∈ s.insts := by
  obtain ⟨k, hk, rfl⟩ := List.getElem_of_mem hm
  have e : t.insts[k] = t.inst k := by simp [State.inst, hk]
  by_cases hka : k = s.active
  · exact .inl (by rw [e, State.me, h.active, hka])
  · exact .inr (by rw [e, h.others k hka]; exact inst_mem (by rw [← h.count]; exact hk))

/-- A read of the active instance's memory gives a Word. -/
theorem memRead_fits {s : State} (h : s.WordsOk) (ha : s.active < s.insts.length) (a : Nat) :
    fits s.cfg.wordBits (s.memRead a) := by
  rw [memRead_eq]
  split
  · exact zero_fits _
  · rcases read_eq_zero_or_mem s.me.mem a with h0 | h0
    · rw [h0]
      exact zero_fits _
    · exact ((h.insts _ (inst_mem ha)).cells _ h0).2

/-- Every value in a channel is a Word. -/
theorem chan_fits {s : State} (h : s.WordsOk) (j : Nat) : ∀ v ∈ (s.chan j).buf, fits s.cfg.wordBits v := by
  by_cases hl : j < s.chans.length
  · exact h.chans _ (chan_mem hl)
  · rw [chan_absent (by omega)]
    simp [Channel.fresh]

end Sys2Proof.Laws
end

