-- ==== Sys2Proof/Laws/PerInstr.lean ====
section
/-! SUPPORT. Statements made for every instruction, one lemma per constructor. -/

/-- The instruction word of a well-formed instruction as the table of legal words has it (spec R111, R123): its low two digits are the opcode,
the opcode has as many parameters as the instruction, and no digit stands above those of its parameters. -/
def Sys2Proof.Laws.WordLayout.Statement (i : Sys2Proof.Instr) : Prop :=
  i.wf = true →
    0 ≤ Sys2Proof.encode i ∧ (Sys2Proof.encode i).toNat % 100 = i.opcode ∧
      Sys2Proof.nparams i.opcode = some i.params ∧ (Sys2Proof.encode i).toNat < 10 ^ (2 + i.params)

namespace Sys2Proof.Laws

theorem WordLayout.add (a b d : Mode) : WordLayout.Statement (.add a b d) := by
  cases a <;> cases b <;> cases d <;> unfold WordLayout.Statement <;> decide

theorem WordLayout.mul (a b d : Mode) : WordLayout.Statement (.mul a b d) := by
  cases a <;> cases b <;> cases d <;> unfold WordLayout.Statement <;> decide

theorem WordLayout.inp (d : Mode) : WordLayout.Statement (.inp d) := by
  cases d <;> unfold WordLayout.Statement <;> decide

theorem WordLayout.out (a : Mode) : WordLayout.Statement (.out a) := by
  cases a <;> unfold WordLayout.Statement <;> decide

theorem WordLayout.jt (a b : Mode) : WordLayout.Statement (.jt a b) := by
  cases a <;> cases b <;> unfold WordLayout.Statement <;> decide

theorem WordLayout.jf (a b : Mode) : WordLayout.Statement (.jf a b) := by
  cases a <;> cases b <;> unfold WordLayout.Statement <;> decide

theorem WordLayout.lt (a b d : Mode) : WordLayout.Statement (.lt a b d) := by
  cases a <;> cases b <;> cases d <;> unfold WordLayout.Statement <;> decide

theorem WordLayout.eq (a b d : Mode) : WordLayout.Statement (.eq a b d) := by
  cases a <;> cases b <;> cases d <;> unfold WordLayout.Statement <;> decide

theorem WordLayout.arb (a : Mode) : WordLayout.Statement (.arb a) := by
  cases a <;> unfold WordLayout.Statement <;> decide

theorem WordLayout.halt : WordLayout.Statement .halt := by unfold WordLayout.Statement; decide

end Sys2Proof.Laws
end

