-- ==== Sys2Proof/Laws/Step.lean ====
section
/-! SUPPORT. Everything a step of the block can do, and what the arbiter's choice can be. -/

namespace Sys2Proof.Laws
open Sys2Proof.Machine

theorem mem_enabled {s : State} {i : Nat} : i ∈ s.enabled ↔ i < s.insts.length ∧ s.canStep i = true := by
  simp [State.enabled]

/-- The choice is an enabled instance. -/
theorem pick_mem {es : List Nat} (h : es ≠ []) (c : Nat) : pick es c ∈ es := by
  match es, h with
  | [i], _ => simp [pick]
  | i :: j :: rest, _ =>
    show (if c ∈ i :: j :: rest then c else (i :: j :: rest).headD 0) ∈ i :: j :: rest
    split
    · assumption
    · simp

/-- Naming an enabled instance chooses it. -/
theorem pick_of_mem {es : List Nat} {i : Nat} (h : i ∈ es) : pick es i = i := by
  match es, h with
  | [j], h => simpa [pick, eq_comm] using h
  | j :: k :: rest, h => simp [pick, h]

theorem networkStep_eq {s : State} (h : s.enabled ≠ []) :
    s.networkStep = (s.grant (pick s.enabled s.choice)).runActive := by
  unfold State.networkStep
  split
  · contradiction
  · rename_i he
    rw [he]

/-- The inversion lemma of `step`. -/
theorem step_cases {s t : State} (h : step s = .next t) :
    (s.nstate = .configured ∧ t = s.start) ∨
    (s.nstate = .running ∧ s.enabled = [] ∧ t = s.detectDeadlock) ∨
    (s.nstate = .running ∧ ∃ i, i ∈ s.enabled ∧ (s.grant i).runActive = .next t) := by
  unfold step at h
  split at h
  · rename_i hn
    cases h
    exact .inl ⟨hn, rfl⟩
  · rename_i hn
    by_cases he : s.enabled = []
    · unfold State.networkStep at h
      rw [he] at h
      cases h
      exact .inr (.inl ⟨hn, he, rfl⟩)
    · rw [networkStep_eq he] at h
      exact .inr (.inr ⟨hn, _, pick_mem he _, h⟩)
  all_goals exact absurd h (by simp)

/-- The step of a Running network with an enabled instance is the chosen instance's. -/
theorem step_running {s : State} (hn : s.nstate = .running) (he : s.enabled ≠ []) :
    step s = (s.grant (pick s.enabled s.choice)).runActive := by
  unfold step
  rw [hn]
  exact networkStep_eq he

/-- The step of a Running network with no enabled instance is the detector's. -/
theorem step_deadlock {s : State} (hn : s.nstate = .running) (he : s.enabled = []) :
    step s = .next s.detectDeadlock := by
  unfold step
  rw [hn]
  unfold State.networkStep
  rw [he]

end Sys2Proof.Laws
end

