-- ==== Sys2Proof/Laws/Wiring.lean ====
section
/-! SUPPORT. The wiring that a configuration fixes (spec R241), and what the start step leaves in the channels and memories. -/

namespace Sys2Proof.Laws
open Sys2Proof.Machine

/-- An admitted configuration has an instance (R240). -/
theorem instances_pos {c : Config} (h : c.wf = true) : 1 ≤ c.instances := by
  simp only [Config.wf, Bool.and_eq_true, decide_eq_true_eq] at h
  unfold Config.instances
  cases hc : c.entry with
  | network ps f d =>
    have hp := h.1.1.2
    simp only [hc, Entry.wf, Bool.and_eq_true] at hp
    cases ps <;> simp_all
  | runOnce _ => simp

/-- Every channel has one producer (R83): no two instances have the same output channel. -/
theorem outChannel_inj {c : Config} {i j : Nat} (hi : i < c.instances) (hj : j < c.instances)
    (h : c.outChannel i = c.outChannel j) : i = j := by
  unfold Config.outChannel at h
  split at h <;> split at h <;> (try split at h) <;> omega

/-- Every output channel is one of the network's. -/
theorem outChannel_lt {c : Config} {i : Nat} (hi : i < c.instances) : c.outChannel i < c.channels := by
  unfold Config.outChannel Config.channels
  split <;> split <;> omega

/-- Every instance has an input channel. -/
theorem instances_le_channels (c : Config) : c.instances ≤ c.channels := by
  unfold Config.channels
  split <;> omega

/-- A `runOnce` is single pass (R261). -/
theorem runOnce_single_pass {c : Config} (h : c.isRunOnce = true) : c.feedback = false ∧ c.instances = 1 := by
  unfold Config.isRunOnce at h
  unfold Config.feedback Config.instances
  split at h <;> simp_all

theorem seedPhases_length (f : Bool) (d : Int) (ps : List Int) : (seedPhases f d ps).length = ps.length := by
  cases ps <;> simp [seedPhases]

/-- Seeding gives every channel of the wiring. -/
theorem seeded_length (c : Config) : (seeded c).length = c.channels := by
  unfold seeded Config.channels Config.instances Config.feedback
  cases c.entry with
  | network ps f d => cases f <;> simp [seedPhases_length]
  | runOnce _ => simp

/-- A program laid at `base` reads back, and every other word reads 0 (R64). -/
theorem read_ofWords (ws : List Int) (base a : Nat) :
    Memory.read (Memory.ofWords base ws) a = if base ≤ a then ws.getD (a - base) 0 else 0 := by
  induction ws generalizing base with
  | nil => simp [Memory.ofWords, Memory.read]
  | cons w ws ih =>
    have step : ∀ h : base < a, ws.getD (a - (base + 1)) 0 = (w :: ws).getD (a - base) 0 := by
      intro h
      rw [show a - base = (a - (base + 1)) + 1 by omega]
      simp
    unfold Memory.ofWords
    rcases Nat.lt_trichotomy base a with h | h | h
    · split
      · rw [ih, if_pos (by omega), if_pos (by omega), step h]
      · rw [Memory.read, if_neg (by omega), ih, if_pos (by omega), if_pos (by omega), step h]
    · subst h
      split
      · rename_i hw
        rw [ih, if_neg (by omega), if_pos (by omega)]
        simp [hw]
      · simp [Memory.read]
    · split
      · rw [ih, if_neg (by omega), if_neg (by omega)]
      · rw [Memory.read, if_neg (by omega), ih, if_neg (by omega), if_neg (by omega)]

/-- A fresh instance's memory holds PROGRAM and zeros (R290). -/
theorem readAt_fresh {s : State} {i a : Nat} {ws : List Int} (hi : s.inst i = Inst.fresh ws) (h : a < s.cfg.memWords) :
    s.readAt i a = ws.getD a 0 := by
  unfold State.readAt
  rw [if_neg (by omega), hi]
  simp [Inst.fresh, read_ofWords]

/-- Every instance after the start step is fresh (R290). -/
theorem start_inst {s : State} {i : Nat} (h : i < s.cfg.instances) : s.start.inst i = Inst.fresh s.cfg.program := by
  simp [State.inst, State.start, h]

/-- Every instance of a network just built is fresh (R290). -/
theorem build_inst {c : Config} {i : Nat} (h : i < c.instances) : (State.build c).inst i = Inst.fresh c.program := by
  simp [State.inst, State.build, h]

end Sys2Proof.Laws
end

