-- ==== Sys2Proof/Tests/Slice0.lean ====
section
/-!
SUPPORT. The model's own tests. Expected results are those of spec/95_test_vectors.md (named by their row) or follow from the encoding tables
of spec/30_encoding.md by hand. The theorems `witness_…` show that the hypotheses of each statement in Obligations.lean can be met together.
-/

namespace Sys2Proof.Tests
open Sys2Proof Sys2Proof.Machine

/-! ### States -/

/-- An instance at `pc` with the relative base `rb` and the memory `[w0, w1, …]`. -/
def machine (pc rb : Int) (words : List Int) (e : EState) : Inst :=
  { pc := pc, rb := rb, mem := Memory.ofWords 0 words, estate := e, fault := none }

/-- One instance in a Running single-pass network: memory, `rb`, its input channel's values and whether that is closed. -/
def solo (words : List Int) (rb : Int) (input : List Int) (closed : Bool) : State :=
  { cfg := Config.default, nstate := .running, lastOut := none, nfault := none, deadlock := none,
    insts := [machine 0 rb words .running], chans := [⟨input, closed⟩, ⟨[], false⟩], active := 0, schedule := [],
    tick := 0 }

/-- `solo` with 16 words of memory. -/
def small (words : List Int) : State :=
  { solo words 0 [] true with cfg := { Config.default with memWords := 16 } }

/-- Two instances in a Running feedback network with channels of capacity 2; `i` steps next. -/
def ring (i : Nat) (m0 m1 : Inst) (c0 c1 : Channel) : State :=
  { cfg := { Config.default with chanCap := .bounded 2, entry := .network [5, 6] true 0 },
    nstate := .running, lastOut := none, nfault := none, deadlock := none, insts := [m0, m1], chans := [c0, c1],
    active := i, schedule := [i], tick := 0 }

/-- A `runOnce` that has started. -/
def once (words : List Int) (inputs : List Int) : State :=
  { solo words 0 inputs true with cfg := { Config.default with entry := .runOnce inputs } }

/-- What is read of a next state. -/
def next {α : Type} (o : Host.Outcome State Fault Refusal) (f : State → α) : Option α :=
  match o with
  | .next t => some (f t)
  | .fault _ => none
  | .refused _ => none

/-! ### Well-formedness: each check refuses an ill-formed term -/

theorem test_wf_refuses_immediate_destinations :
    (∀ a b : Mode, (a = .position ∨ a = .immediate ∨ a = .relative) →
      Instr.wf (.add a b .immediate) = false ∧ Instr.wf (.mul a b .immediate) = false ∧
      Instr.wf (.lt a b .immediate) = false ∧ Instr.wf (.eq a b .immediate) = false) ∧
    Instr.wf (.inp .immediate) = false ∧ Instr.wf (.add .immediate .relative .position) = true := by
  refine ⟨fun a b _ => ⟨rfl, rfl, rfl, rfl⟩, by decide, by decide⟩

theorem test_wf_refuses_configurations :
    Config.default.wf = true ∧
    Config.wf { Config.default with wordBits := 1 } = false ∧
    Config.wf { Config.default with chanCap := .bounded 1 } = false ∧
    Config.wf { Config.default with entry := .network [] true 0 } = false ∧
    Config.wf { Config.default with entry := .network [2 ^ 63] true 0 } = false ∧
    Config.wf { Config.default with entry := .network [0] true (2 ^ 63) } = false ∧
    Config.wf { Config.default with entry := .runOnce [-(2 ^ 63) - 1] } = false ∧
    Config.wf { Config.default with program := [2 ^ 63] } = false ∧
    Config.wf { Config.default with memWords := 2, program := [1, 2, 3] } = false := by decide

/-! ### Decoding: words written out from R111, R113, R115, R116 -/

/-- `1 + 100*0 + 1000*1 + 10000*2`. -/
theorem test_decode_add : decode .ignore 21001 = .instr (.add .position .immediate .relative) := by decide
/-- `2 + 100*2 + 1000*0`. -/
theorem test_decode_mul : decode .fault 202 = .instr (.mul .relative .position .position) := by decide
theorem test_decode_in : decode .fault 203 = .instr (.inp .relative) := by decide
theorem test_decode_out : decode .fault 104 = .instr (.out .immediate) := by decide
/-- `5 + 100*1 + 1000*2`. -/
theorem test_decode_jt : decode .fault 2105 = .instr (.jt .immediate .relative) := by decide
theorem test_decode_jf : decode .fault 1006 = .instr (.jf .position .immediate) := by decide
theorem test_decode_lt : decode .fault 20107 = .instr (.lt .immediate .position .relative) := by decide
theorem test_decode_eq : decode .fault 1208 = .instr (.eq .relative .immediate .position) := by decide
theorem test_decode_arb : decode .fault 109 = .instr (.arb .immediate) := by decide
theorem test_decode_halt : decode .fault 99 = .instr .halt := by decide

/-- A8, A9, A10, A15, H3 to H8 and IO6, IO8. -/
theorem test_decode_rejects :
    decode .ignore 11101 = .reject .immediateDestination (some 2) ∧
    decode .ignore 301 = .reject .badMode (some 0) ∧
    decode .ignore 30001 = .reject .badMode (some 2) ∧
    decode .fault 101101 = .reject .extraDigits none ∧
    decode .fault 199 = .reject .extraDigits none ∧
    decode .ignore (-99) = .reject .negativeWord none ∧
    decode .ignore 0 = .reject .badOpcode none ∧
    decode .ignore 50 = .reject .badOpcode none ∧
    decode .ignore 10 = .reject .badOpcode none ∧
    decode .ignore 103 = .reject .immediateDestination (some 0) ∧
    decode .ignore 903 = .reject .badMode (some 0) := by decide

/-- R125: the assembler's words of `ADD #4, #3, [4]` (S2); an ill-formed instruction and a wrong number of slots have none. -/
theorem test_assemble :
    assemble (.add .immediate .immediate .position) [4, 3, 4] = some [1101, 4, 3, 4] ∧
    assemble (.inp .immediate) [0] = none ∧ assemble .halt [0] = none := by decide

/-- The table's words: 1002 as 64 bits, and -99 as its 64-bit pattern. -/
theorem test_decodeTableWord :
    decodeTableWord 64 1002 = some (.mul .position .immediate .position) ∧
    decodeTableWord 64 (2 ^ 64 - 99) = none := by decide

/-! ### One step of each instruction -/

theorem test_add_A1 : next (step (solo [1, 4, 3, 4, 33] 0 [] false)) (fun t => (t.memRead 4, t.me.pc)) = some (37, 4) := by
  decide
theorem test_add_A4 : next (step (solo [1101, 2 ^ 63 - 1, 1, 5, 99, 0] 0 [] false)) (fun t => t.memRead 5) = some (-(2 ^ 63)) := by
  decide
theorem test_mul_A19 : next (step (solo [1002, 4, 3, 4, 33] 0 [] false)) (fun t => (t.memRead 4, t.me.pc)) = some (99, 4) := by
  decide
theorem test_mul_A22 : next (step (solo [1102, 2 ^ 32, 2 ^ 32, 5, 99, 7] 0 [] false)) (fun t => t.memRead 5) = some 0 := by
  decide
theorem test_in_IO5 :
    next (step (solo [203, -3, 0, 0, 0, 0, 0, 0] 10 [5] false)) (fun t => (t.memRead 7, t.me.pc, (t.chan 0).buf)) =
      some (5, 2, []) := by decide
theorem test_in_IO2 :
    next (step (solo [3, 0, 4, 0, 99] 0 [] false)) (fun t => (t.me.estate, t.me.pc)) = some (.waitingOnInput, 0) := by decide
/-- IO11; the only instance is the terminal one, so its output is tapped (R247). -/
theorem test_out_IO11 :
    next (step (solo [204, 1, 99, -8] 2 [] false)) (fun t => ((t.chan 1).buf, t.me.pc, t.lastOut)) =
      some ([-8], 2, some (-8)) := by decide
/-- IO12: instance 0's output channel is full and its consumer lives; IO13: its consumer is Halted. -/
theorem test_out_IO12_IO13 :
    next (step (ring 0 (machine 0 0 [104, 7, 99] .running) (machine 0 0 [] .waitingOnInput) ⟨[], false⟩ ⟨[1, 2], false⟩))
      (fun t => (t.me.estate, t.me.pc, (t.chan 1).buf)) = some (.waitingOnOutput, 0, [1, 2]) ∧
    next (step (ring 0 (machine 0 0 [104, 7, 99] .running) (machine 0 0 [99] .halted) ⟨[], true⟩ ⟨[1, 2], false⟩))
      (fun t => (t.me.estate, t.me.pc, (t.chan 1).buf)) = some (.running, 2, [1, 2]) := by decide
theorem test_jt_J3 : next (step (solo [1105, -1, 9] 0 [] false)) (fun t => t.me.pc) = some 9 := by decide
theorem test_jt_J2 : next (step (solo [1105, 0, 7] 0 [] false)) (fun t => t.me.pc) = some 3 := by decide
theorem test_jf_J8 : next (step (solo [1106, 0, 9] 0 [] false)) (fun t => t.me.pc) = some 9 := by decide
theorem test_jf_J10 : next (step (solo [1106, -1, 9] 0 [] false)) (fun t => t.me.pc) = some 3 := by decide
theorem test_lt_C2 : next (step (solo [1107, -1, 0, 5, 99, 7] 0 [] false)) (fun t => (t.memRead 5, t.me.pc)) = some (1, 4) := by
  decide
theorem test_lt_C6 : next (step (solo [7, 5, 5, 5, 99, 3] 0 [] false)) (fun t => t.memRead 5) = some 0 := by decide
theorem test_eq_C7 : next (step (solo [1108, 8, 8, 4, 7] 0 [] false)) (fun t => (t.memRead 4, t.me.pc)) = some (1, 4) := by
  decide
theorem test_eq_C10 : next (step (solo [1208, 0, 5, 6, 99, 42, 9] 5 [] false)) (fun t => t.memRead 6) = some 0 := by decide
theorem test_arb_R2 :
    next (step (solo [209, -3, 99, 0, 0, 0, 0, 5] 10 [] false)) (fun t => (t.me.rb, t.me.pc)) = some (15, 2) := by decide
theorem test_arb_R6 : next (step (solo [109, 1, 99] (2 ^ 63 - 1) [] false)) (fun t => t.me.rb) = some (-(2 ^ 63)) := by decide
/-- H1, in a network that never had an output: NoOutput (R248). -/
theorem test_halt_H1 :
    next (step (solo [99] 0 [] false)) (fun t => (t.me.estate, t.me.pc, (t.chan 1).closed)) = some (.halted, 0, true) ∧
    next (step (solo [99] 0 [] false)) (fun t => (t.nstate, t.nfault)) = some (.faulted, some (0, .noOutput)) := by
  decide
/-- P3's last step: a `runOnce` that halts without output has the result `Ok([])` (D35). -/
theorem test_halt_runOnce : next (step (once [99] [])) (fun t => t.runOnceResult) = some (some (.ok [])) := by decide

/-! ### Faults -/

/-- A11. -/
theorem test_fault_A11 :
    next (step (solo [1, -1, 0, 0] 0 [] false)) (fun t => (t.me.estate, t.me.fault, (t.chan 1).closed, t.nstate)) =
      some (.faulted, some ⟨.addressFault, none, 0, some 1, some 1, some 0, some (-1)⟩, true, .faulted) := by decide
/-- A16. -/
theorem test_fault_A16 :
    next (step (small [1101, 1, 1, 100])) (fun t => t.me.fault) =
      some (some ⟨.capacityFault, none, 0, some 1101, some 1, some 2, some 100⟩) := by decide
/-- IO3. -/
theorem test_fault_IO3 :
    next (step (solo [3, 0, 4, 0, 99] 0 [] true)) (fun t => t.me.fault) =
      some (some ⟨.channelClosedFault, none, 0, some 3, some 3, some 0, none⟩) := by decide
/-- H4. -/
theorem test_fault_H4 :
    next (step (solo [-99] 0 [] false)) (fun t => t.me.fault) =
      some (some ⟨.decodeFault, some .negativeWord, 0, some (-99), none, none, none⟩) := by decide
/-- J6's second step: the fetch at a negative `pc`. -/
theorem test_fault_J6 :
    next (step { solo [] 0 [] false with insts := [machine (-4) 0 [1105, 1, -4] .running] }) (fun t => (t.me.fault, t.me.pc)) =
      some (some ⟨.addressFault, none, -4, none, none, none, some (-4)⟩, -4) := by decide

/-! ### The network and the host's side -/

/-- N1's start: the seeds of `ECHO`, PHASES = [5,6], FEEDBACK. -/
theorem test_start_seeds :
    (buildNetwork Config.default [3, 0, 4, 0, 99] [5, 6] true 0).bind (fun s => next (step s) fun t =>
      (t.nstate, t.chans, t.readAt 1 0, t.insts.length)) =
      some (.running, [⟨[5, 0], false⟩, ⟨[6], false⟩], 3, 2) := by decide

/-- Single pass closes `ch[0]` at the start and leaves the sink open (R245). -/
theorem test_start_single_pass :
    next (step State.reset) (fun t => t.chans) = some [⟨[0, 0], true⟩, ⟨[], false⟩] := by decide

/-- N6's last step: both instances wait on empty channels. -/
theorem test_deadlock_N6 :
    next (step (ring 0 (machine 4 0 [] .waitingOnInput) (machine 2 0 [] .waitingOnInput) ⟨[], false⟩ ⟨[], false⟩))
      (fun t => t.result) = some (some (.deadlock [(.waitingOnInput, 4), (.waitingOnInput, 2)])) := by decide

/-- The word that `withFetchWord` places is the one the next step runs: ARB with an Immediate 0, and HALT. -/
theorem test_withFetchWord :
    next (step (State.reset.withFetchWord 64 109)) (fun t => (t.me.estate, t.me.pc)) = some (.running, 2) ∧
    next (step (State.reset.withFetchWord 64 99)) (fun t => (t.me.estate, t.me.pc)) = some (.halted, 0) := by decide

/-- R262, R226, and the codes of R220 and R221. -/
theorem test_load :
    loadProgram Config.default [1, 2 ^ 63, 2 ^ 64] = .parseFault 1 ∧
    loadProgram { Config.default with memWords := 1 } [1, 2] = .tooLong ∧
    FaultKind.capacityFault.code = 5 ∧ NetCause.noOutput.code = 6 ∧ decodeSubCode .extraDigits = 5 := by decide

/-- The host's step of one engine, and its refusal to step an engine that has stopped (R141, R142). -/
theorem test_engineStep :
    ((ring 1 (machine 0 0 [1105, 1, 7] .running) (machine 0 0 [99] .halted) ⟨[], true⟩ ⟨[], false⟩).engineStep 0).map
      (fun p => (p.1, (p.2.inst 0).pc)) = some (.running, 7) ∧
    ((ring 1 (machine 0 0 [1105, 1, 7] .running) (machine 0 0 [99] .halted) ⟨[], true⟩ ⟨[], false⟩).engineStep 1).isNone =
      true := by decide

/-! ### Witnesses: words, decoder, memory, operands -/

theorem witness_WrapIsTheUniqueCongruentWord :
    1 ≤ 64 ∧ fits 64 (-(2 ^ 63)) ∧ (-(2 ^ 63) - 2 ^ 63) % modulus 64 = 0 := by decide

theorem witness_DecodeOfEncodeIsTheInstruction : Instr.wf (.add .position .immediate .relative) = true := by decide

/-- One word for each clause: -99; 50; 301 at parameter 0; 11101 at parameter 2; 100099 and 99 under FAULT, 100099 under IGNORE. -/
theorem witness_DecoderChecksInOrder :
    ((-99 : Int) < 0) ∧ (0 ≤ (50 : Int) ∧ nparams ((50 : Int).toNat % 100) = none) ∧
    (nparams ((301 : Int).toNat % 100) = some 3 ∧ 3 ≤ digit (2 + 0) (301 : Int).toNat) ∧
    (nparams ((11101 : Int).toNat % 100) = some 3 ∧ (∀ q, q < 2 → digit (2 + q) (11101 : Int).toNat ≤ 2 ∧
        ¬(destParam ((11101 : Int).toNat % 100) = some q ∧ digit (2 + q) (11101 : Int).toNat = 1)) ∧
      destParam ((11101 : Int).toNat % 100) = some 2 ∧ digit (2 + 2) (11101 : Int).toNat = 1) ∧
    (nparams ((100099 : Int).toNat % 100) = some 0 ∧ (100099 : Int).toNat / 10 ^ (2 + 0) ≠ 0) ∧
    (nparams ((99 : Int).toNat % 100) = some 0 ∧ (99 : Int).toNat / 10 ^ (2 + 0) = 0) := by decide

/-- The last word of a 16-word memory. -/
theorem witness_StoreChangesOneWord : (small [99]).Ready ∧ 15 < (small [99]).cfg.memWords ∧ (small [99]).cfg.memWords ≤ 16 :=
  ⟨⟨by decide, by decide⟩, by decide, by decide⟩

/-- A negative slot (`pc` at the greatest Word); a slot that is not negative with a negative address; and with 16 words of memory a destination
at 16 (CapacityFault), one at 15, and a source at 16. -/
theorem witness_ResolverFollowsItsProcedure :
    wrap 64 ((2 ^ 63 - 1) + 1 + 0) < 0 ∧
    (let s := small [1, -1, 16, 15];
      (0 ≤ wrap s.cfg.wordBits (s.me.pc + 1 + 0) ∧ s.memRead (wrap s.cfg.wordBits (s.me.pc + 1 + 0)).toNat < 0) ∧
      (s.cfg.memWords : Int) ≤ s.memRead (wrap s.cfg.wordBits (s.me.pc + 1 + 1)).toNat ∧
      s.memRead (wrap s.cfg.wordBits (s.me.pc + 1 + 2)).toNat < (s.cfg.memWords : Int)) := by decide

theorem words_solo : (solo [1, 4, 3, 4, 33] 0 [42] true).WordsOk := by
  refine ⟨?_, ?_, ?_⟩
  · intro m hm
    have : m = machine 0 0 [1, 4, 3, 4, 33] .running := by simpa [solo] using hm
    subst this
    exact ⟨by decide, by decide, by decide, by decide⟩
  · decide
  · intro v hv
    simp [solo] at hv

theorem witness_DefaultMemoryHasNoCapacityFault :
    let s := solo [1, 4, 3, 4, 33] 0 [42] true
    s.Shape ∧ s.WordsOk ∧ s.active < s.insts.length ∧ s.cfg.memWords = 2 ^ (s.cfg.wordBits - 1) :=
  ⟨⟨by decide, by decide, by decide⟩, words_solo, by decide, by decide⟩

/-! ### Witnesses: the instructions -/

theorem witness_AddStoresTheWrappedSum :
    let s := solo [1, 4, 3, 4, 33] 0 [] true
    s.Ready ∧ s.resolve 0 .position false = .ok 4 ∧ s.resolve 1 .position false = .ok 3 ∧ s.resolve 2 .position true = .ok 4 :=
  ⟨⟨by decide, by decide⟩, rfl, rfl, rfl⟩

theorem witness_MulStoresTheWrappedProduct :
    let s := solo [1002, 4, 3, 4, 33] 0 [] true
    s.Ready ∧ s.resolve 0 .position false = .ok 4 ∧ s.resolve 1 .immediate false = .ok 2 ∧ s.resolve 2 .position true = .ok 4 :=
  ⟨⟨by decide, by decide⟩, rfl, rfl, rfl⟩

/-- Both clauses: 3 < 4, and the boundary 4 ≤ 4. -/
theorem witness_LtStoresTheSignedComparison :
    let s := solo [21107, 3, 4, 0] 5 [] true
    (s.Ready ∧ s.resolve 0 .immediate false = .ok 1 ∧ s.resolve 1 .immediate false = .ok 2 ∧
      s.resolve 2 .relative true = .ok 5) ∧ s.memRead 1 < s.memRead 2 ∧
    (solo [21107, 4, 4, 0] 5 [] true).memRead 2 ≤ (solo [21107, 4, 4, 0] 5 [] true).memRead 1 :=
  ⟨⟨⟨by decide, by decide⟩, rfl, rfl, rfl⟩, by decide, by decide⟩

/-- Both clauses. -/
theorem witness_EqStoresTheEquality :
    let s := solo [1108, 8, 8, 4, 7] 0 [] true
    (s.Ready ∧ s.resolve 0 .immediate false = .ok 1 ∧ s.resolve 1 .immediate false = .ok 2 ∧
      s.resolve 2 .position true = .ok 4) ∧ s.memRead 1 = s.memRead 2 ∧
    (solo [1108, 8, 9, 4, 7] 0 [] true).memRead 1 ≠ (solo [1108, 8, 9, 4, 7] 0 [] true).memRead 2 :=
  ⟨⟨⟨by decide, by decide⟩, rfl, rfl, rfl⟩, by decide, by decide⟩

theorem witness_InStoresTheOldestValue :
    let s := solo [203, -3, 0] 10 [5, 6] true
    s.Ready ∧ s.active < s.chans.length ∧ s.resolve 0 .relative true = .ok 7 ∧ (s.chan s.active).buf = 5 :: [6] :=
  ⟨⟨by decide, by decide⟩, by decide, rfl, rfl⟩

/-- Both clauses. -/
theorem witness_InWaitsOrFaultsOnAnEmptyChannel :
    (let s := solo [3, 0] 0 [] false;
      s.resolve 0 .position true = .ok 0 ∧ (s.chan s.active).buf = [] ∧ (s.chan s.active).closed = false) ∧
    (let s := solo [3, 0] 0 [] true;
      s.resolve 0 .position true = .ok 0 ∧ (s.chan s.active).buf = [] ∧ (s.chan s.active).closed = true) :=
  ⟨⟨rfl, rfl, rfl⟩, ⟨rfl, rfl, rfl⟩⟩

/-- At the terminal instance, into the sink; at instance 0, which is not the terminal one, with one value in a channel of two; and with the
consumer Halted. -/
theorem witness_OutPushesItsOperand :
    (let s := solo [104, 7] 0 [] true;
      s.Ready ∧ s.outIndex < s.chans.length ∧ s.resolve 0 .immediate false = .ok 1 ∧ s.consumerStopped s.outIndex = false ∧
        s.full s.outIndex = false ∧ s.active = s.cfg.terminal) ∧
    (let s := ring 0 (machine 0 0 [104, 7] .running) (machine 0 0 [] .waitingOnInput) ⟨[], false⟩ ⟨[1], false⟩;
      s.Ready ∧ s.outIndex < s.chans.length ∧ s.resolve 0 .immediate false = .ok 1 ∧ s.consumerStopped s.outIndex = false ∧
        s.full s.outIndex = false ∧ s.active ≠ s.cfg.terminal) ∧
    (let s := ring 0 (machine 0 0 [104, 7] .running) (machine 0 0 [99] .halted) ⟨[], true⟩ ⟨[1, 2], false⟩;
      s.Ready ∧ s.outIndex < s.chans.length ∧ s.resolve 0 .immediate false = .ok 1 ∧ s.consumerStopped s.outIndex = true) :=
  ⟨⟨⟨by decide, by decide⟩, by decide, rfl, by decide, by decide, by decide⟩,
    ⟨⟨by decide, by decide⟩, by decide, rfl, by decide, by decide, by decide⟩,
    ⟨⟨by decide, by decide⟩, by decide, rfl, by decide⟩⟩

theorem witness_OutWaitsOnAFullChannel :
    let s := ring 0 (machine 0 0 [104, 7] .running) (machine 0 0 [] .waitingOnInput) ⟨[], false⟩ ⟨[1, 2], false⟩
    s.resolve 0 .immediate false = .ok 1 ∧ s.consumerStopped s.outIndex = false ∧ s.full s.outIndex = true :=
  ⟨rfl, by decide, by decide⟩

/-- Both clauses. -/
theorem witness_JtJumpsOnANonZeroWord :
    let s := solo [1105, -1, 9] 0 [] true
    (s.Ready ∧ s.resolve 0 .immediate false = .ok 1 ∧ s.resolve 1 .immediate false = .ok 2) ∧ s.memRead 1 ≠ 0 ∧
      (solo [1105, 0, 9] 0 [] true).memRead 1 = 0 :=
  ⟨⟨⟨by decide, by decide⟩, rfl, rfl⟩, by decide, by decide⟩

/-- Both clauses. -/
theorem witness_JfJumpsOnZero :
    let s := solo [1106, 0, 9] 0 [] true
    (s.Ready ∧ s.resolve 0 .immediate false = .ok 1 ∧ s.resolve 1 .immediate false = .ok 2) ∧ s.memRead 1 = 0 ∧
      (solo [1106, 5, 9] 0 [] true).memRead 1 ≠ 0 :=
  ⟨⟨⟨by decide, by decide⟩, rfl, rfl⟩, by decide, by decide⟩

theorem witness_ArbAdjustsTheRelativeBase :
    let s := solo [209, -3, 99, 0, 0, 0, 0, 5] 10 [] true
    s.Ready ∧ s.resolve 0 .relative false = .ok 7 := ⟨⟨by decide, by decide⟩, rfl⟩

/-- A non-terminal instance; the terminal instance with a value pushed, in a `runOnce`, and with neither. -/
theorem witness_HaltStopsTheEngine :
    (let s := ring 0 (machine 0 0 [99] .running) (machine 0 0 [] .running) ⟨[], false⟩ ⟨[], false⟩;
      s.active < s.insts.length ∧ s.outIndex < s.chans.length ∧ s.active ≠ s.cfg.terminal) ∧
    (let s := { solo [99] 0 [] true with lastOut := some 3 };
      s.active < s.insts.length ∧ s.outIndex < s.chans.length ∧ s.active = s.cfg.terminal ∧ s.lastOut ≠ none) ∧
    (let s := once [99] [];
      s.active < s.insts.length ∧ s.outIndex < s.chans.length ∧ s.active = s.cfg.terminal ∧ s.cfg.isRunOnce = true) ∧
    (let s := solo [99] 0 [] true;
      s.active < s.insts.length ∧ s.outIndex < s.chans.length ∧ s.active = s.cfg.terminal ∧ s.lastOut = none ∧
        s.cfg.isRunOnce = false) := by decide

/-- ADD with Position sources and with Relative sources, the same words at the same addresses. -/
theorem witness_ModesOnlySourceTheOperands :
    let s := solo [0, 4, 5, 6, 33, 7, 0] 0 [] true
    s.src2dst .position .position .position = .ok (33, 7, 6) ∧ s.src2dst .relative .relative .relative = .ok (33, 7, 6) :=
  ⟨rfl, rfl⟩

/-! ### Witnesses: faults -/

/-- A negative `pc`; a negative word; a word that is not. -/
theorem witness_RaiseRecordsAndStops :
    (let s := { solo [] 0 [] true with insts := [machine (-4) 0 [] .running] };
      s.active < s.insts.length ∧ s.outIndex < s.chans.length ∧ s.me.pc < 0) ∧
    (let s := solo [-99] 0 [] true;
      s.active < s.insts.length ∧ s.outIndex < s.chans.length ∧ 0 ≤ s.me.pc ∧ s.memRead s.me.pc.toNat < 0) ∧
    (let s := solo [50] 0 [] true;
      s.active < s.insts.length ∧ s.outIndex < s.chans.length ∧ 0 ≤ s.me.pc ∧ 0 ≤ s.memRead s.me.pc.toNat) := by decide

/-- Each parameter in turn is the first that fails. -/
theorem witness_FirstFailingParameterIsTheFault :
    (solo [1, -1, 0, 0] 0 [] true).resolve 0 .position false = .error (addressFault 0 (-1)) ∧
    (solo [3, -1] 0 [] true).resolve 0 .position true = .error (addressFault 0 (-1)) ∧
    ((solo [1, 0, -2, 0] 0 [] true).resolve 0 .position false = .ok 0 ∧
      (solo [1, 0, -2, 0] 0 [] true).resolve 1 .position false = .error (addressFault 1 (-2))) ∧
    ((solo [1, 0, 0, -3] 0 [] true).resolve 0 .position false = .ok 0 ∧
      (solo [1, 0, 0, -3] 0 [] true).resolve 1 .position false = .ok 0 ∧
      (solo [1, 0, 0, -3] 0 [] true).resolve 2 .position true = .error (addressFault 2 (-3))) :=
  ⟨rfl, rfl, ⟨rfl, rfl⟩, ⟨rfl, rfl, rfl⟩⟩

/-! ### Witnesses: the step -/

theorem witness_StepRunsTheDecodedInstruction :
    let s := solo [1, 4, 3, 4, 33] 0 [] true
    let u := { s with
      active := pick s.enabled s.choice
      schedule := s.schedule.tail
      tick := s.tick + 1 }
    s.nstate = .running ∧ s.enabled ≠ [] ∧ 0 ≤ u.me.pc ∧
      decode u.cfg.extraDigits (u.memRead u.me.pc.toNat) = .instr (.add .position .position .position) := by decide

/-- Both clauses. -/
theorem witness_StepFaultsAtFetchAndDecode :
    (let s := { solo [] 0 [] true with insts := [machine (-4) 0 [] .running] };
      s.nstate = .running ∧ s.enabled ≠ [] ∧ (s.grant (pick s.enabled s.choice)).me.pc < 0) ∧
    (let s := solo [50] 0 [] true;
      let u := s.grant (pick s.enabled s.choice);
      s.nstate = .running ∧ s.enabled ≠ [] ∧ 0 ≤ u.me.pc ∧
        decode u.cfg.extraDigits (u.memRead u.me.pc.toNat) = .reject .badOpcode none) := by decide

/-- Two enabled instances; and one of each kind that R142 names. -/
theorem witness_AnyEnabledInstanceMayStep :
    (ring 0 (machine 0 0 [] .running) (machine 0 0 [] .waitingOnInput) ⟨[], false⟩ ⟨[3], false⟩).enabled = [0, 1] ∧
    (ring 0 (machine 0 0 [] .waitingOnOutput) (machine 0 0 [] .running) ⟨[], false⟩ ⟨[3], false⟩).enabled = [0, 1] ∧
    (ring 0 (machine 0 0 [] .waitingOnInput) (machine 0 0 [] .halted) ⟨[], true⟩ ⟨[3], false⟩).enabled = [0] := by decide

/-- With FEEDBACK and in single pass. -/
theorem witness_StartInstantiatesAndSeeds :
    (let s := State.build { Config.default with entry := .network [5, 6, 7] true 1 };
      s.nstate = .configured ∧ s.cfg.entry = .network [5, 6, 7] true 1 ∧ ([5, 6, 7] : List Int) ≠ []) ∧
    (State.reset.nstate = .configured ∧ State.reset.cfg.entry = .network [0] false 0) := by decide

theorem witness_RunOnceStartsWithItsInputs :
    let s := State.build { Config.default with entry := .runOnce [8] }
    s.nstate = .configured ∧ s.cfg.entry = .runOnce [8] := by decide

/-- All but the capacity clause of `Control` can be decided on a concrete state; so can it, at a known capacity. -/
theorem control_intro {s : State}
    (h1 : ∀ m ∈ s.insts, (m.fault.isSome = true ↔ m.estate = .faulted) ∧
      (m.estate = .waitingOnOutput → s.cfg.chanCap ≠ .unbounded))
    (h2 : ∀ i, i < s.cfg.instances → ((s.chan (s.cfg.outChannel i)).closed = true ↔ (s.inst i).estate.final = true))
    (h3 : s.cfg.feedback = false → ((s.chan 0).closed = true ↔ s.nstate ≠ .configured))
    (h4 : s.cfg.chanCap = .unbounded ∨ s.cfg.chanCap = .bounded 2 ∧ ∀ j, j < s.cfg.instances → (s.chan j).buf.length ≤ 2)
    (hc : s.nstate = .configured →
      (∀ m ∈ s.insts, m.estate = .running) ∧ s.lastOut = none ∧ s.nfault = none ∧ s.deadlock = none)
    (hr : s.nstate = .running →
      (∀ m ∈ s.insts, m.estate ≠ .faulted) ∧ (s.inst s.cfg.terminal).estate ≠ .halted ∧ s.nfault = none ∧ s.deadlock = none)
    (hd : s.nstate = .done →
      (s.inst s.cfg.terminal).estate = .halted ∧ (s.lastOut.isSome = true ∨ s.cfg.isRunOnce = true) ∧
        s.nfault = none ∧ s.deadlock = none)
    (hf : s.nstate = .faulted → s.deadlock = none ∧
      ((∃ i r, s.nfault = some (i, .recorded r) ∧ i < s.cfg.instances ∧ (s.inst i).fault = some r) ∨
        (s.nfault = some (s.cfg.terminal, .noOutput) ∧ (s.inst s.cfg.terminal).estate = .halted ∧ s.lastOut = none ∧
          s.cfg.isRunOnce = false)))
    (hl : s.nstate = .deadlocked →
      s.nfault = none ∧ s.deadlock = some (s.insts.map fun m => (m.estate, m.pc)) ∧ s.enabled = []) : s.Control := by
  refine ⟨fun m hm => (h1 m hm).1, h2, h3, fun m hm => (h1 m hm).2, ?_, hc, hr, hd, hf, hl⟩
  intro k j hk _ hj
  rcases h4 with h4 | ⟨h4, h5⟩
  · rw [hk] at h4
    exact absurd h4 (by simp)
  · rw [hk] at h4
    have : k = 2 := by simpa using h4
    exact this ▸ h5 j hj

/-- N6's end: instance 0 waits for input and instance 1 too, with every channel empty and open. -/
def stuck : State :=
  ring 0 (machine 4 0 [] .waitingOnInput) (machine 2 0 [] .waitingOnInput) ⟨[], false⟩ ⟨[], false⟩

theorem stuck_control : stuck.Control :=
  control_intro (by decide) (by decide) (by decide) (by decide) (by decide) (by decide) (by decide)
    (fun h => absurd h (by decide)) (by decide)

/-- Instance 0 pushes into the channel from which instance 1 reads; both are enabled and both complete. -/
def busy : State :=
  ring 0 (machine 0 0 [104, 7] .running) (machine 0 0 [3, 9] .running) ⟨[], false⟩ ⟨[6], false⟩

theorem busy_control : busy.Control :=
  control_intro (by decide) (by decide) (by decide) (by decide) (by decide) (by decide) (by decide)
    (fun h => absurd h (by decide)) (by decide)

theorem busy_shape : busy.Shape := ⟨by decide, by decide, by decide⟩

/-- Both clauses. -/
theorem witness_DeadlockIsDetected :
    (stuck.Shape ∧ stuck.Control ∧ stuck.nstate = .running ∧ stuck.enabled = []) ∧
    (busy.Shape ∧ busy.Control ∧ busy.nstate = .running ∧ busy.enabled ≠ [] ∧ ∃ t, step busy = .next t) :=
  ⟨⟨⟨by decide, by decide, by decide⟩, stuck_control, by decide, by decide⟩,
    ⟨busy_shape, busy_control, by decide, by decide, _, rfl⟩⟩

theorem witness_StepStopsExactlyWhenTheNetworkEnded :
    State.reset.nstate = .configured ∧ stuck.nstate = .running ∧ stuck.detectDeadlock.nstate = .deadlocked ∧
      (solo [99] 0 [] true).halt.nstate = .faulted ∧ (once [99] []).halt.nstate = .done := by decide

/-- An enabled instance; one that is not; a network that does not run. -/
theorem witness_EngineStepIsAStepTheArbiterMayChoose :
    (let s := ring 0 (machine 0 0 [1105, 1, 7] .running) (machine 0 0 [] .waitingOnInput) ⟨[], false⟩ ⟨[], false⟩;
      s.nstate = .running ∧ 0 ∈ s.enabled ∧ 1 ∉ s.enabled) ∧ State.reset.nstate ≠ .running := by decide

/-! ### Witnesses: channels -/

/-- Each clause: a value, end-of-stream, empty. -/
theorem witness_PopTakesTheOldestValue :
    (0 < (solo [] 0 [1, 2] true).chans.length ∧ ((solo [] 0 [1, 2] true).chan 0).buf = 1 :: [2]) ∧
    (((solo [] 0 [] true).chan 0).buf = [] ∧ ((solo [] 0 [] true).chan 0).closed = true) ∧
    (((solo [] 0 [] false).chan 0).buf = [] ∧ ((solo [] 0 [] false).chan 0).closed = false) := by decide

/-- Each clause: a stopped consumer, a full channel at its boundary, and one value below it. -/
theorem witness_PushAppendsDropsOrRefuses :
    (let s := ring 0 (machine 0 0 [] .running) (machine 0 0 [] .halted) ⟨[], true⟩ ⟨[1, 2], false⟩;
      1 < s.chans.length ∧ 1 < s.cfg.instances ∧ (s.inst 1).estate = .halted) ∧
    (let s := ring 0 (machine 0 0 [] .running) (machine 0 0 [] .running) ⟨[], false⟩ ⟨[1, 2], false⟩;
      1 < s.chans.length ∧ (s.inst 1).estate = .running ∧ s.cfg.chanCap = .bounded 2 ∧ 1 < s.cfg.instances ∧
        2 ≤ (s.chan 1).buf.length) ∧
    (let s := ring 0 (machine 0 0 [] .running) (machine 0 0 [] .running) ⟨[], false⟩ ⟨[1], false⟩;
      1 < s.chans.length ∧ (s.inst 1).estate = .running ∧ s.cfg.chanCap = .bounded 2 ∧ (s.chan 1).buf.length < 2) := by decide

/-! ### Witnesses: whole-machine rules -/

theorem reset_control : State.reset.Control :=
  control_intro (by decide) (by decide) (by decide) (by decide) (by decide) (by decide) (by decide)
    (fun h => absurd h (by decide)) (by decide)

/-- `stuck` and `busy` step as the second and third line of the conclusion say, and reset as the first. -/
theorem witness_NetworkTransitionsAreTheTable :
    (State.reset.Shape ∧ State.reset.Control ∧ ∃ t, step State.reset = .next t) ∧
    (stuck.Shape ∧ stuck.Control ∧ ∃ t, step stuck = .next t) ∧
    (busy.Shape ∧ busy.Control ∧ ∃ t, step busy = .next t) :=
  ⟨⟨⟨by decide, by decide, by decide⟩, reset_control, _, rfl⟩,
    ⟨⟨by decide, by decide, by decide⟩, stuck_control, _, rfl⟩, ⟨busy_shape, busy_control, _, rfl⟩⟩

/-- An instruction that advances, one that jumps, HALT, one that faults, and a word that does not decode. -/
theorem witness_PcMovesOnlyAsTheRuleSays :
    (∃ t, exec (.out .immediate) busy = .next t ∧ t.me.estate = .running) ∧
    (∃ t, exec (.jt .immediate .immediate) (solo [1105, 1, 7] 0 [] true) = .next t ∧ t.me.estate = .running) ∧
    (∃ t, exec (.jf .immediate .immediate) (solo [1106, 1, 7] 0 [] true) = .next t ∧ t.me.estate = .running) ∧
    (∃ t, exec .halt busy = .next t) ∧
    (∃ t, exec (.out .position) (solo [4, -2] 0 [] true) = .next t ∧ t.me.estate ≠ .running) ∧
    (∃ t, (solo [50] 0 [] true).runActive = .next t ∧ t.me.estate ≠ .running) :=
  ⟨⟨_, rfl, by decide⟩, ⟨_, rfl, by decide⟩, ⟨_, rfl, by decide⟩, ⟨_, rfl⟩, ⟨_, rfl, by decide⟩, ⟨_, rfl, by decide⟩⟩

theorem witness_OnlyArbWritesTheRelativeBase :
    (∃ t, exec (.arb .immediate) (solo [109, 19] 2000 [] true) = .next t ∧
      t.me.rb ≠ (solo [109, 19] 2000 [] true).me.rb) ∧
    (∃ t, exec (.out .immediate) busy = .next t ∧ ∀ a, Instr.out .immediate ≠ .arb a) :=
  ⟨⟨_, rfl, by decide⟩, ⟨_, rfl, by intro a; simp⟩⟩

theorem witness_OnlyTheDestinationIsWritten :
    (∃ t, exec (.add .position .position .position) (solo [1, 4, 3, 4, 33] 0 [] true) = .next t ∧
      t.readAt 0 4 ≠ (solo [1, 4, 3, 4, 33] 0 [] true).readAt 0 4) ∧
    (∃ t, exec (.inp .position) (solo [3, 9] 0 [6] true) = .next t ∧
      t.readAt 0 9 ≠ (solo [3, 9] 0 [6] true).readAt 0 9) ∧
    (∃ t, (solo [3, 9] 0 [6] true).runActive = .next t ∧ t.readAt 0 9 ≠ (solo [3, 9] 0 [6] true).readAt 0 9) :=
  ⟨⟨_, rfl, by decide⟩, ⟨_, rfl, by decide⟩, ⟨_, rfl, by decide⟩⟩

theorem witness_ConfigurationNeverChanges : busy.Shape ∧ ∃ t, step busy = .next t := ⟨busy_shape, _, rfl⟩

/-- A network with a stopped instance beside the one that steps. -/
theorem witness_InstancesAreIsolatedAndFinalOnesFrozen :
    let s := ring 1 (machine 4 0 [99] .halted) (machine 0 0 [104, 7] .running) ⟨[], false⟩ ⟨[], true⟩
    s.nstate = .running ∧ (s.inst 0).estate.final = true ∧ ∃ t, step s = .next t ∧ 0 ≠ t.active :=
  ⟨by decide, by decide, _, rfl, by decide⟩

/-- A push, and a closed channel. -/
theorem witness_ChannelsAreFifo :
    (busy.nstate = .running ∧ ∃ t, step busy = .next t ∧ (t.chan 1).buf = (busy.chan 1).buf ++ [7]) ∧
    (let s := solo [1105, 1, 0] 0 [] true;
      s.nstate = .running ∧ (s.chan 0).closed = true ∧ ∃ t, step s = .next t) :=
  ⟨⟨by decide, _, rfl, by decide⟩, by decide, by decide, _, rfl⟩

/-- Two networks that differ in the other instance and in what lies behind the head of the input channel. -/
theorem witness_EngineStepDependsOnItsViewOnly :
    let s := ring 0 (machine 0 0 [3, 9] .running) (machine 0 0 [99] .running) ⟨[6], false⟩ ⟨[], false⟩
    let u := ring 0 (machine 0 0 [3, 9] .running) (machine 4 7 [50] .running) ⟨[6, 7], false⟩ ⟨[1], false⟩
    s ≠ u ∧ s.cfg = u.cfg ∧ s.active = u.active ∧ s.active < s.insts.length ∧ u.active < u.insts.length ∧ s.me = u.me ∧
      (s.chan s.active).buf.head? = (u.chan u.active).buf.head? ∧ (s.chan s.active).closed = (u.chan u.active).closed ∧
      s.accepts s.outIndex = u.accepts u.outIndex := by decide

theorem witness_CompletedStepsOfTwoInstancesCommute :
    busy.Shape ∧ busy.nstate = .running ∧ 0 ∈ busy.enabled ∧ 1 ∈ busy.enabled ∧
    (∃ a, (busy.grant 0).runActive = .next a ∧ (a.inst 0).estate = .running) ∧
    (∃ b, (busy.grant 1).runActive = .next b ∧ (b.inst 1).estate = .running) :=
  ⟨busy_shape, by decide, by decide, by decide, ⟨_, rfl, by decide⟩, ⟨_, rfl, by decide⟩⟩

theorem witness_StepKeepsEveryWordInRange :
    let s := solo [1, 4, 3, 4, 33] 0 [42] true
    s.Shape ∧ s.WordsOk ∧ ∃ t, step s = .next t := ⟨⟨by decide, by decide, by decide⟩, words_solo, _, rfl⟩

theorem witness_StepKeepsTheStatusRegistersConsistent : busy.Shape ∧ busy.Control ∧ ∃ t, step busy = .next t :=
  ⟨busy_shape, busy_control, _, rfl⟩

theorem witness_BuiltNetworksMeetTheInvariants :
    Config.wf { Config.default with chanCap := .bounded 2, entry := .network [5, 6] true 1, program := [99] } = true := by
  decide

theorem witness_RunOnceNeverDeadlocks :
    (once [3, 9] [8]).Shape ∧ (once [3, 9] [8]).Control ∧ (once [3, 9] [8]).cfg.isRunOnce = true ∧
      ∃ t, step (once [3, 9] [8]) = .next t :=
  ⟨⟨by decide, by decide, by decide⟩,
    control_intro (by decide) (by decide) (by decide) (by decide) (by decide) (by decide) (by decide)
      (fun h => absurd h (by decide)) (by decide), by decide, _, rfl⟩

/-- Each way a network ends, and one that runs. -/
theorem witness_EndedNetworksHaveExactlyOneResult :
    (busy.Control ∧ busy.cfg.isRunOnce = false ∧ busy.nstate = .running) ∧
    (let s := ({ solo [99] 0 [] true with lastOut := some 3 } : State).halt;
      s.Control ∧ s.cfg.isRunOnce = false ∧ s.nstate = .done) ∧
    (let s := (solo [99] 0 [] true).halt;
      s.Control ∧ s.cfg.isRunOnce = false ∧ s.nstate = .faulted) ∧
    (stuck.detectDeadlock.Control ∧ stuck.detectDeadlock.cfg.isRunOnce = false ∧ stuck.detectDeadlock.nstate = .deadlocked) :=
  ⟨⟨busy_control, by decide, by decide⟩,
    ⟨control_intro (by decide) (by decide) (by decide) (by decide) (by decide) (by decide) (by decide)
      (fun h => absurd h (by decide)) (by decide), by decide, by decide⟩,
    ⟨control_intro (by decide) (by decide) (by decide) (by decide) (by decide) (by decide) (by decide)
      (fun _ => ⟨by decide, .inr (by decide)⟩) (by decide), by decide, by decide⟩,
    ⟨control_intro (by decide) (by decide) (by decide) (by decide) (by decide) (by decide) (by decide)
      (fun h => absurd h (by decide)) (by decide), by decide, by decide⟩⟩

/-- Running, Halted and Faulted. -/
theorem witness_RunOnceReturnsItsOutputs :
    (let s := once [3, 9] [8];
      s.Shape ∧ s.Control ∧ s.cfg.isRunOnce = true ∧ s.nstate ≠ .deadlocked ∧ s.nstate = .running) ∧
    (let s := (once [99] []).halt;
      s.Shape ∧ s.Control ∧ s.cfg.isRunOnce = true ∧ s.nstate ≠ .deadlocked ∧ s.nstate = .done ∧
        (s.inst 0).estate = .halted) ∧
    (let s := (once [50] []).raise (decodeFault .badOpcode none);
      s.Shape ∧ s.Control ∧ s.cfg.isRunOnce = true ∧ s.nstate ≠ .deadlocked ∧ s.nstate = .faulted ∧
        (s.inst 0).estate = .faulted) :=
  ⟨⟨⟨by decide, by decide, by decide⟩,
      control_intro (by decide) (by decide) (by decide) (by decide) (by decide) (by decide) (by decide)
        (fun h => absurd h (by decide)) (by decide), by decide, by decide, by decide⟩,
    ⟨⟨by decide, by decide, by decide⟩,
      control_intro (by decide) (by decide) (by decide) (by decide) (by decide) (by decide) (by decide)
        (fun h => absurd h (by decide)) (by decide), by decide, by decide, by decide, by decide⟩,
    ⟨⟨by decide, by decide, by decide⟩,
      control_intro (by decide) (by decide) (by decide) (by decide) (by decide) (by decide) (by decide)
        (fun _ => ⟨by decide, .inl ⟨0, _, rfl, by decide, rfl⟩⟩) (by decide), by decide, by decide, by decide, by decide⟩⟩

/-- With FEEDBACK and in single pass, each with two instances, so that both lines of the wiring are met, and Configured; and a network in which an
IN of instance 1 finds a value. -/
theorem witness_NetworkIsWiredAsTheTableSays :
    (let s := State.build { Config.default with entry := .network [5, 6] true 1 };
      s.Shape ∧ s.cfg.entry = .network [5, 6] true 1 ∧ 0 + 1 < ([5, 6] : List Int).length ∧ s.nstate = .configured) ∧
    (let s := State.build { Config.default with entry := .network [5, 6] false 1 };
      s.Shape ∧ s.cfg.entry = .network [5, 6] false 1 ∧ 0 + 1 < ([5, 6] : List Int).length ∧ s.nstate = .configured) ∧
    (busy.Shape ∧ busy.cfg.entry = .network [5, 6] true 0 ∧ 1 < ([5, 6] : List Int).length ∧
      ({ busy with active := 1 } : State).resolve 0 .position true = .ok 9 ∧ (busy.chan 1).buf = 6 :: []) :=
  ⟨⟨⟨by decide, by decide, by decide⟩, by decide, by decide, by decide⟩,
    ⟨⟨by decide, by decide, by decide⟩, by decide, by decide, by decide⟩,
    ⟨busy_shape, by decide, by decide, rfl, by decide⟩⟩

/-- The last word in range and the first outside it; a program that fills the memory and one that is a word too long. -/
theorem witness_LoadChecksItsTokens :
    (∀ x ∈ ([2 ^ 63 - 1] : List Int), fits 64 x) ∧ ¬ fits 64 (2 ^ 63) ∧
      (small []).cfg.memWords < (List.replicate 17 (0 : Int)).length ∧
      (List.replicate 16 (0 : Int)).length ≤ (small []).cfg.memWords := by decide

end Sys2Proof.Tests
end

/-!
PROOFS. Words and their ranges: `wrap` is the only Word of its congruence class (spec R9), and every step keeps every word of the state a Word
and every memory canonical (R31, R40, R60). The step lemma is assembled from one `WordsOk` rule per operation of the state.
-/

namespace Sys2Proof.Proofs
open Sys2Proof.Machine Sys2Proof.Laws

/-! ### `wrap` (R9) -/

/-- `wrap` moves an integer by a multiple of `2^W`. -/
theorem modulus_dvd_wrap_sub (W : Nat) (x : Int) : modulus W ∣ wrap W x - x := by
  refine ⟨-((x + half W) / modulus W), ?_⟩
  have h := Int.emod_add_mul_ediv (x + half W) (modulus W)
  simp only [wrap, mul_neg]
  omega

/-- Two Words that are congruent modulo `2^W` are equal: they lie less than `2^W` apart. -/
theorem eq_of_fits_of_modulus_dvd {W : Nat} (hW : 1 ≤ W) {y z : Int} (hy : fits W y) (hz : fits W z)
    (hd : modulus W ∣ y - z) : y = z := by
  have hm := modulus_eq_two_half hW
  have hlt : |y - z| < modulus W := abs_lt.mpr ⟨by omega, by omega⟩
  have h0 := Int.eq_zero_of_abs_lt_dvd hd hlt
  omega

/-- Settles O1: the range is `wrap_fits`, and any other Word of the class lies less than `2^W` from `wrap W x`. -/
theorem wrapIsTheUniqueCongruentWord : Obligations.WrapIsTheUniqueCongruentWord := by
  intro W x hW
  refine ⟨wrap_fits hW x, Int.emod_eq_zero_of_dvd (modulus_dvd_wrap_sub W x), fun y hy hyx => ?_⟩
  refine eq_of_fits_of_modulus_dvd hW hy (wrap_fits hW x) ?_
  have hsub := Int.dvd_sub (Int.dvd_of_emod_eq_zero hyx) (modulus_dvd_wrap_sub W x)
  rwa [sub_sub_sub_cancel_right] at hsub

/-- The result of a comparison is a Word from two bits on. -/
theorem truthWord_fits {W : Nat} (hW : 2 ≤ W) (b : Bool) : fits W (truthWord b) := by
  cases b
  · exact zero_fits W
  · exact one_fits hW

/-! ### What an admitted configuration says of its words (R8, R240, R262) -/

theorem allFit_iff {W : Nat} {ws : List Int} : allFit W ws = true ↔ ∀ w ∈ ws, fits W w := by
  simp [allFit]

theorem two_le_wordBits {c : Config} (h : c.wf = true) : 2 ≤ c.wordBits := by
  simp only [Config.wf, Bool.and_eq_true, decide_eq_true_eq] at h
  obtain ⟨⟨⟨⟨hbits, -⟩, -⟩, -⟩, -⟩ := h
  exact hbits

theorem entry_wf {c : Config} (h : c.wf = true) : c.entry.wf c.wordBits = true := by
  simp only [Config.wf, Bool.and_eq_true, decide_eq_true_eq] at h
  obtain ⟨⟨⟨-, hentry⟩, -⟩, -⟩ := h
  exact hentry

/-- PROGRAM is Words, and fits in the memory. -/
theorem program_fits {c : Config} (h : c.wf = true) :
    (∀ w ∈ c.program, fits c.wordBits w) ∧ c.program.length ≤ c.memWords := by
  simp only [Config.wf, Bool.and_eq_true, decide_eq_true_eq] at h
  obtain ⟨⟨-, hprogram⟩, hlength⟩ := h
  exact ⟨allFit_iff.mp hprogram, hlength⟩

/-- Seeding puts phases and the drive value into the channels, and nothing else. -/
theorem mem_seedPhases {feedback : Bool} {drive : Int} {phases : List Int} {ch : Channel} {v : Int}
    (hch : ch ∈ seedPhases feedback drive phases) (hv : v ∈ ch.buf) : v ∈ phases ∨ v = drive := by
  cases phases with
  | nil => simp [seedPhases] at hch
  | cons p ps =>
    simp only [seedPhases, List.mem_cons, List.mem_map] at hch
    rcases hch with rfl | ⟨q, hq, rfl⟩
    · simp only [List.mem_cons, List.not_mem_nil, or_false] at hv
      rcases hv with rfl | hdrive
      · exact .inl List.mem_cons_self
      · exact .inr hdrive
    · obtain rfl := List.mem_singleton.mp hv
      exact .inl (List.mem_cons_of_mem _ hq)

/-- The start step puts Words into the channels (R243, R261). -/
theorem seeded_fits {c : Config} (h : c.wf = true) {ch : Channel} (hch : ch ∈ seeded c) :
    ∀ v ∈ ch.buf, fits c.wordBits v := by
  have hentry := entry_wf h
  intro v hv
  unfold seeded at hch
  cases he : c.entry with
  | network phases feedback drive =>
    simp only [he, Entry.wf, Bool.and_eq_true, decide_eq_true_eq, allFit_iff] at hentry hch
    obtain ⟨⟨-, hphases⟩, hdrive⟩ := hentry
    rcases List.mem_append.mp hch with hin | hsink
    · rcases mem_seedPhases hin hv with hp | rfl
      · exact hphases v hp
      · exact hdrive
    · cases feedback with
      | true => simp at hsink
      | false =>
        obtain rfl := List.mem_singleton.mp hsink
        simp [Channel.fresh] at hv
  | runOnce inputs =>
    simp only [he, Entry.wf, allFit_iff, List.mem_cons, List.not_mem_nil, or_false] at hentry hch
    rcases hch with rfl | rfl
    · exact hentry v hv
    · simp [Channel.fresh] at hv

/-! ### `WordsOk` of one machine -/

theorem inst_wordsOk_fresh {c : Config} {program : List Int} (hfit : ∀ w ∈ program, fits c.wordBits w)
    (hlen : program.length ≤ c.memWords) : (Inst.fresh program).WordsOk c where
  pc := zero_fits _
  rb := zero_fits _
  form := wf_ofWords program
  cells e he := by
    obtain ⟨-, hlt, hmem⟩ := mem_ofWords he
    exact ⟨by omega, hfit _ hmem⟩

theorem inst_wordsOk_write {c : Config} {m : Inst} (h : m.WordsOk c) {a : Nat} {v : Int} (ha : a < c.memWords)
    (hv : fits c.wordBits v) : (m.withMem (Memory.write m.mem a v)).WordsOk c where
  pc := h.pc
  rb := h.rb
  form := wf_write h.form a v
  cells e he := by
    rcases mem_write he with rfl | hold
    · exact ⟨ha, hv⟩
    · exact h.cells e hold

theorem inst_wordsOk_withRb {c : Config} {m : Inst} (h : m.WordsOk c) {v : Int} (hv : fits c.wordBits v) :
    (m.withRb v).WordsOk c := ⟨h.pc, hv, h.form, h.cells⟩

theorem inst_wordsOk_completeAt {c : Config} {m : Inst} (h : m.WordsOk c) {v : Int} (hv : fits c.wordBits v) :
    (m.completeAt v).WordsOk c := ⟨hv, h.rb, h.form, h.cells⟩

theorem inst_wordsOk_withEState {c : Config} {m : Inst} (h : m.WordsOk c) (e : EState) :
    (m.withEState e).WordsOk c := ⟨h.pc, h.rb, h.form, h.cells⟩

theorem inst_wordsOk_faultedBy {c : Config} {m : Inst} (h : m.WordsOk c) (r : FaultRec) :
    (m.faultedBy r).WordsOk c := ⟨h.pc, h.rb, h.form, h.cells⟩

/-! ### `WordsOk` of the state, one rule per operation -/

/-- The active machine holds Words; where there is none, the one read in its place is fresh, without a program. -/
theorem me_wordsOk {s : State} (h : s.WordsOk) : s.me.WordsOk s.cfg := by
  by_cases hl : s.active < s.insts.length
  · exact h.insts _ (inst_mem hl)
  · have habsent : s.me = Inst.fresh [] := by
      simp [State.me, State.inst, List.getElem?_eq_none (Nat.le_of_not_lt hl)]
    rw [habsent]
    exact inst_wordsOk_fresh (by simp) (Nat.zero_le _)

/-- `WordsOk` reads the configuration, the machines, the channels and the tap alone. -/
theorem wordsOk_congr {s t : State} (h : s.WordsOk) (hcfg : t.cfg = s.cfg) (hinsts : t.insts = s.insts)
    (hchans : t.chans = s.chans) (hlast : t.lastOut = s.lastOut) : t.WordsOk where
  insts := by rw [hinsts, hcfg]; exact h.insts
  chans := by rw [hchans, hcfg]; exact h.chans
  lastOut := by rw [hlast, hcfg]; exact h.lastOut

theorem wordsOk_setMe {s : State} (h : s.WordsOk) {m : Inst} (hm : m.WordsOk s.cfg) : (s.setMe m).WordsOk where
  insts n hn := by
    rcases mem_setMe hn with rfl | hold
    · exact hm
    · exact h.insts n hold
  chans := h.chans
  lastOut := h.lastOut

theorem wordsOk_setChan {s : State} (h : s.WordsOk) (j : Nat) {c : Channel}
    (hc : ∀ v ∈ c.buf, fits s.cfg.wordBits v) : (s.setChan j c).WordsOk where
  insts := h.insts
  chans d hd := by
    rcases mem_setChan hd with rfl | hold
    · exact hc
    · exact h.chans d hold
  lastOut := h.lastOut

theorem wordsOk_memWrite {s : State} (h : s.WordsOk) {a : Nat} {v : Int} (ha : a < s.cfg.memWords)
    (hv : fits s.cfg.wordBits v) : (s.memWrite a v).WordsOk :=
  wordsOk_setMe h (inst_wordsOk_write (me_wordsOk h) ha hv)

theorem wordsOk_setRb {s : State} (h : s.WordsOk) {v : Int} (hv : fits s.cfg.wordBits v) : (s.setRb v).WordsOk :=
  wordsOk_setMe h (inst_wordsOk_withRb (me_wordsOk h) hv)

theorem wordsOk_goTo {s : State} (h : s.WordsOk) {v : Int} (hv : fits s.cfg.wordBits v) : (s.goTo v).WordsOk :=
  wordsOk_setMe h (inst_wordsOk_completeAt (me_wordsOk h) hv)

theorem wordsOk_advance {s : State} (h : s.WordsOk) (hW : 1 ≤ s.cfg.wordBits) (n : Nat) : (s.advance n).WordsOk :=
  wordsOk_goTo h (wrap_fits hW _)

theorem wordsOk_wait {s : State} (h : s.WordsOk) (e : EState) : (s.wait e).WordsOk :=
  wordsOk_setMe h (inst_wordsOk_withEState (me_wordsOk h) e)

theorem wordsOk_close {s : State} (h : s.WordsOk) (j : Nat) : (s.close j).WordsOk :=
  wordsOk_setChan h j (chan_fits h j)

theorem wordsOk_tap {s : State} (h : s.WordsOk) {v : Int} (hv : fits s.cfg.wordBits v) : (s.tap v).WordsOk := by
  unfold State.tap
  split
  · refine ⟨h.insts, h.chans, fun w hw => ?_⟩
    obtain rfl := Option.mem_some_iff.mp hw
    exact hv
  · exact h

theorem wordsOk_raise {s : State} (h : s.WordsOk) (f : FaultInfo) : (s.raise f).WordsOk :=
  wordsOk_congr (wordsOk_close (wordsOk_setMe h (inst_wordsOk_faultedBy (me_wordsOk h) (s.faultRec f))) s.outIndex)
    rfl rfl rfl rfl

theorem wordsOk_halt {s : State} (h : s.WordsOk) : s.halt.WordsOk :=
  wordsOk_congr (wordsOk_close (wordsOk_wait h .halted) s.outIndex)
    (endByHalt_cfg _) (endByHalt_insts _) (endByHalt_chans _) (endByHalt_lastOut _)

theorem wordsOk_start {s : State} (h : s.WordsOk) (hc : s.cfg.wf = true) : s.start.WordsOk where
  insts m hm := by
    obtain ⟨hfit, hlen⟩ := program_fits hc
    rw [start_insts] at hm
    rw [List.eq_of_mem_replicate hm]
    exact inst_wordsOk_fresh hfit hlen
  chans _ hch := seeded_fits hc hch
  lastOut := h.lastOut

/-! ### The step -/

/-- The word that ADD, MUL, LT or EQ stores is a Word: it is wrapped, or a truth word. -/
theorem stored_fits {s : State} (hW : 2 ≤ s.cfg.wordBits) {i : Instr} {a b d : Mode} {x y v : Int}
    (form : (i = .add a b d ∧ v = s.wrap (x + y)) ∨ (i = .mul a b d ∧ v = s.wrap (x * y)) ∨
      (i = .lt a b d ∧ v = ltWord x y) ∨ (i = .eq a b d ∧ v = eqWord x y)) : fits s.cfg.wordBits v := by
  have hW1 : 1 ≤ s.cfg.wordBits := by omega
  rcases form with ⟨-, rfl⟩ | ⟨-, rfl⟩ | ⟨-, rfl⟩ | ⟨-, rfl⟩
  · exact wrap_fits hW1 _
  · exact wrap_fits hW1 _
  · exact truthWord_fits hW _
  · exact truthWord_fits hW _

/-- Every effect of an instruction keeps every word a Word. -/
theorem effect_wordsOk {s t : State} {i : Instr} (h : s.WordsOk) (hW : 2 ≤ s.cfg.wordBits)
    (ha : s.active < s.insts.length) (he : Effect s i t) : t.WordsOk := by
  have hW1 : 1 ≤ s.cfg.wordBits := by omega
  have hread := memRead_fits h ha
  cases he with
  | raised _ f => exact wordsOk_raise h f
  | stored _ a b d x y v ea form ops =>
    obtain ⟨hdest, -, -⟩ := src2dst_inv ops
    exact wordsOk_advance (wordsOk_memWrite h (resolve_dest_lt hdest) (stored_fits hW form)) hW1 3
  | input d ea v rest dest value =>
    have hbuf := chan_fits h s.active
    rw [value, List.forall_mem_cons] at hbuf
    obtain ⟨hv, hrest⟩ := hbuf
    have hpop : (s.setChan s.active ((s.chan s.active).withBuf rest)).WordsOk := wordsOk_setChan h _ hrest
    exact wordsOk_advance (wordsOk_memWrite hpop (resolve_dest_lt dest) hv) hW1 1
  | inputWaits => exact wordsOk_wait h _
  | dropped a v operand =>
    obtain ⟨ea, rfl⟩ := src1_inv operand
    exact wordsOk_tap (wordsOk_advance h hW1 1) (hread ea)
  | pushed a v operand =>
    obtain ⟨ea, rfl⟩ := src1_inv operand
    refine wordsOk_tap (wordsOk_advance (wordsOk_setChan h _ ?_) hW1 1) (hread ea)
    exact List.forall_mem_append.mpr ⟨chan_fits h _, List.forall_mem_singleton.mpr (hread ea)⟩
  | outputWaits => exact wordsOk_wait h _
  | jumped _ a b x y form ops =>
    obtain ⟨-, ea, rfl⟩ := src2_inv ops
    exact wordsOk_goTo h (hread ea)
  | passed => exact wordsOk_advance h hW1 2
  | based a x => exact wordsOk_advance (wordsOk_setRb h (wrap_fits hW1 _)) hW1 1
  | halted => exact wordsOk_halt h

/-- An instruction keeps the shape of the state (R242): it changes no parameter and adds or drops no machine and no channel. -/
theorem effect_shape {s t : State} {i : Instr} (h : s.Shape) (he : Effect s i t) : t.Shape where
  cfgOk := by rw [(effect_elsewhere he).cfg]; exact h.cfgOk
  instCount := by rw [(effect_elsewhere he).cfg, (effect_elsewhere he).count]; exact h.instCount
  chanCount := by rw [(effect_elsewhere he).cfg, effect_chanCount he]; exact h.chanCount

/-- A step of the block is the start step, the detector's, or an effect where the step is granted to a machine that exists. -/
theorem step_start_or_deadlock_or_effect {s t : State} (h : step s = .next t) :
    t = s.start ∨ t = s.detectDeadlock ∨ ∃ i k, k < s.insts.length ∧ Effect (s.grant k) i t := by
  rcases step_cases h with ⟨-, ht⟩ | ⟨-, -, ht⟩ | ⟨-, k, hk, hrun⟩
  · exact .inl ht
  · exact .inr (.inl ht)
  · obtain ⟨i, he⟩ := effect_of_runActive hrun
    exact .inr (.inr ⟨i, k, (mem_enabled.mp hk).1, he⟩)

theorem step_shape {s t : State} (h : s.Shape) (hstep : step s = .next t) : t.Shape := by
  rcases step_start_or_deadlock_or_effect hstep with rfl | rfl | ⟨i, k, -, he⟩
  · exact ⟨h.cfgOk, List.length_replicate, seeded_length s.cfg⟩
  · exact ⟨h.cfgOk, h.instCount, h.chanCount⟩
  · have hgrant : (s.grant k).Shape := ⟨h.cfgOk, h.instCount, h.chanCount⟩
    exact effect_shape hgrant he

theorem step_wordsOk {s t : State} (hs : s.Shape) (h : s.WordsOk) (hstep : step s = .next t) : t.WordsOk := by
  rcases step_start_or_deadlock_or_effect hstep with rfl | rfl | ⟨i, k, hk, he⟩
  · exact wordsOk_start h hs.cfgOk
  · exact wordsOk_congr h rfl rfl rfl rfl
  · have hgrant : (s.grant k).WordsOk := wordsOk_congr h rfl rfl rfl rfl
    exact effect_wordsOk hgrant (two_le_wordBits hs.cfgOk) hk he

/-- Settles O46: by cases on what a step can do, each operation keeping the words it does not write and writing Words. -/
theorem stepKeepsEveryWordInRange : Obligations.StepKeepsEveryWordInRange :=
  fun _ _ hs hw hstep => ⟨step_shape hs hstep, step_wordsOk hs hw hstep⟩

end Sys2Proof.Proofs

/-!
PROOFS. One machine's registers: what an instruction does to `pc` (spec R33) and to `rb` (R35, R210), which machines a step leaves alone (R46, R152),
and what a network holds when it is built (R47, R290, R293).
-/

namespace Sys2Proof.Proofs
open Sys2Proof.Machine Sys2Proof.Laws

/-! ### The active machine after an instruction -/

/-- Where there is no active machine an instruction writes none: what is read in its place stays (log 11). -/
theorem me_of_absent {s t : State} (ha : s.insts.length ≤ s.active) (h : s.Elsewhere t) : t.me = s.me := by
  have hs : s.inst s.active = Inst.fresh [] := by simp [State.inst, List.getElem?_eq_none ha]
  have ht : t.inst s.active = Inst.fresh [] := by simp [State.inst, List.getElem?_eq_none (h.count ▸ ha)]
  rw [State.me, State.me, h.active, hs, ht]

/-- IN's pop before its store and its advance touches no machine. -/
theorem me_memWrite_advance_setChan {s : State} (ha : s.active < s.insts.length) (j : Nat) (c : Channel) (ea : Nat)
    (v : Int) (n : Nat) : (((s.setChan j c).memWrite ea v).advance n).me =
      (s.me.withMem (Memory.write s.me.mem ea v)).completeAt (s.wrap (s.me.pc + 1 + (n : Int))) := by
  have ha' : (s.setChan j c).active < (s.setChan j c).insts.length := ha
  rw [memWrite_advance ha', me_setMe ha']
  rfl

/-- OUT's push before its advance touches no machine. -/
theorem me_advance_setChan {s : State} (ha : s.active < s.insts.length) (j : Nat) (c : Channel) (n : Nat) :
    ((s.setChan j c).advance n).me = s.me.completeAt (s.wrap (s.me.pc + 1 + (n : Int))) :=
  me_advance (s := s.setChan j c) ha n

/-- What an instruction does to `pc` (R33). -/
inductive PcMove (s t : State) : Instr → Prop where
  /-- It faulted, waited or halted. -/
  | stays (i : Instr) (stopped : t.me.estate ≠ .running) (pc : t.me.pc = s.me.pc) : PcMove s t i
  /-- It completed and is no jump. -/
  | advances (i : Instr) (notJump : ∀ a b, i ≠ .jt a b ∧ i ≠ .jf a b) (notHalt : i ≠ .halt)
      (running : t.me.estate = .running) (pc : t.me.pc = s.wrap (s.me.pc + 1 + (i.params : Int))) : PcMove s t i
  /-- JT completed. -/
  | jt (a b : Mode) (x y : Int) (ops : s.src2 a b = .ok (x, y)) (running : t.me.estate = .running)
      (pc : t.me.pc = if x = 0 then s.wrap (s.me.pc + 3) else y) : PcMove s t (.jt a b)
  /-- JF completed. -/
  | jf (a b : Mode) (x y : Int) (ops : s.src2 a b = .ok (x, y)) (running : t.me.estate = .running)
      (pc : t.me.pc = if x = 0 then y else s.wrap (s.me.pc + 3)) : PcMove s t (.jf a b)

/-- An instruction other than a jump and HALT advances when its machine completes past its slots. -/
theorem PcMove.of_completeAt {s t : State} {i : Instr} {m : Inst}
    (hme : t.me = m.completeAt (s.wrap (s.me.pc + 1 + (i.params : Int))))
    (notJump : ∀ a b, i ≠ .jt a b ∧ i ≠ .jf a b) (notHalt : i ≠ .halt) : PcMove s t i :=
  .advances i notJump notHalt (by rw [hme, completeAt_estate]) (by rw [hme, completeAt_pc])

theorem effect_pc {s t : State} {i : Instr} (ha : s.active < s.insts.length) (he : Effect s i t) : PcMove s t i := by
  cases he with
  | raised => exact .stays _ (by simp [me_raise ha]) (by simp [me_raise ha])
  | stored i a b d x y v ea form ops =>
    have hme : ((s.memWrite ea v).advance 3).me =
        (s.me.withMem (Memory.write s.me.mem ea v)).completeAt (s.wrap (s.me.pc + 1 + 3)) := by
      rw [memWrite_advance ha, me_setMe ha]
      rfl
    rcases form with ⟨rfl, -⟩ | ⟨rfl, -⟩ | ⟨rfl, -⟩ | ⟨rfl, -⟩ <;> exact .of_completeAt hme (by simp) (by simp)
  | input => exact .of_completeAt (me_memWrite_advance_setChan ha _ _ _ _ _) (by simp) (by simp)
  | inputWaits => exact .stays _ (by simp [me_wait ha]) (by simp [me_wait ha])
  | dropped => exact .of_completeAt ((tap_me _ _).trans (me_advance ha 1)) (by simp) (by simp)
  | pushed => exact .of_completeAt ((tap_me _ _).trans (me_advance_setChan ha _ _ 1)) (by simp) (by simp)
  | outputWaits => exact .stays _ (by simp [me_wait ha]) (by simp [me_wait ha])
  | jumped i a b x y form ops =>
    have hme := me_goTo ha y
    rcases form with ⟨rfl, hx⟩ | ⟨rfl, hx⟩
    · exact .jt a b x y ops (by rw [hme, completeAt_estate]) (by rw [hme, completeAt_pc, if_neg hx])
    · exact .jf a b x y ops (by rw [hme, completeAt_estate]) (by rw [hme, completeAt_pc, if_pos hx])
  | passed i a b x y form ops =>
    have hme : (s.advance 2).me = s.me.completeAt (s.wrap (s.me.pc + 3)) := by
      rw [me_advance ha, add_assoc]
      rfl
    rcases form with ⟨rfl, hx⟩ | ⟨rfl, hx⟩
    · exact .jt a b x y ops (by rw [hme, completeAt_estate]) (by rw [hme, completeAt_pc, if_pos hx])
    · exact .jf a b x y ops (by rw [hme, completeAt_estate]) (by rw [hme, completeAt_pc, if_neg hx])
  | based a x =>
    have hme := me_setMe ha ((s.me.withRb (s.wrap (s.me.rb + x))).completeAt (s.wrap (s.me.pc + 1 + 1)))
    exact .of_completeAt ((congrArg State.me (setRb_advance ha _ 1)).trans hme) (by simp) (by simp)
  | halted => exact .stays _ (by simp [me_halt ha]) (by simp [me_halt ha])

/-- An engine that is not Running after its step keeps its `pc` (R33). -/
theorem PcMove.pc_of_stopped {s t : State} {i : Instr} (h : PcMove s t i) (hstop : t.me.estate ≠ .running) :
    t.me.pc = s.me.pc := by
  cases h with
  | stays _ _ pc => exact pc
  | advances _ _ _ running => exact absurd running hstop
  | jt _ _ _ _ _ running => exact absurd running hstop
  | jf _ _ _ _ _ running => exact absurd running hstop

/-- What an instruction does to `rb` (R35, R210). -/
theorem effect_rb {s t : State} {i : Instr} (ha : s.active < s.insts.length) (he : Effect s i t) :
    t.me.rb = s.me.rb ∨ ∃ a x, i = .arb a ∧ s.src1 a = .ok x ∧ t.me.rb = s.wrap (s.me.rb + x) := by
  cases he with
  | based a x operand => exact .inr ⟨a, x, rfl, operand, by rw [setRb_advance ha, me_setMe ha]; rfl⟩
  | raised _ f => exact .inl (by rw [me_raise ha, faultedBy_rb])
  | stored => exact .inl (by rw [memWrite_advance ha, me_setMe ha]; rfl)
  | input => exact .inl (by rw [me_memWrite_advance_setChan ha]; rfl)
  | inputWaits => exact .inl (by rw [me_wait ha, withEState_rb])
  | dropped => exact .inl (by rw [tap_me, me_advance ha, completeAt_rb])
  | pushed => exact .inl (by rw [tap_me, me_advance_setChan ha, completeAt_rb])
  | outputWaits => exact .inl (by rw [me_wait ha, withEState_rb])
  | jumped => exact .inl (by rw [me_goTo ha, completeAt_rb])
  | passed => exact .inl (by rw [me_advance ha, completeAt_rb])
  | halted => exact .inl (by rw [me_halt ha, withEState_rb])

/-! ### `pc`, `rb` and the other machines -/

/-- Settles O38: each clause keeps the cases of `PcMove` that it speaks of. -/
theorem pcMovesOnlyAsTheRuleSays : Obligations.PcMovesOnlyAsTheRuleSays := by
  intro s t ha
  refine ⟨fun hrun hstop => ?_, fun i hexec => ?_⟩
  · obtain ⟨i, he⟩ := effect_of_runActive hrun
    exact (effect_pc ha he).pc_of_stopped hstop
  · have hmove := effect_pc ha (effect_of_exec hexec)
    refine ⟨hmove.pc_of_stopped, ?_, ?_, ?_, ?_⟩
    · rintro rfl
      cases hmove with
      | stays _ _ pc => exact pc
      | advances _ _ notHalt => exact absurd rfl notHalt
    · intro hr hjump _
      cases hmove with
      | stays _ stopped => exact absurd hr stopped
      | advances _ _ _ _ pc => exact pc
      | jt a b => exact absurd rfl (hjump a b).1
      | jf a b => exact absurd rfl (hjump a b).2
    · rintro a b rfl hr
      cases hmove with
      | stays _ stopped => exact absurd hr stopped
      | advances _ notJump => exact absurd rfl (notJump a b).1
      | jt _ _ x y ops _ pc => exact ⟨x, y, ops, pc⟩
    · rintro a b rfl hr
      cases hmove with
      | stays _ stopped => exact absurd hr stopped
      | advances _ notJump => exact absurd rfl (notJump a b).2
      | jf _ _ x y ops _ pc => exact ⟨x, y, ops, pc⟩

/-- Settles O39: `effect_rb` where the active machine exists; where it does not, no `rb` changes. -/
theorem onlyArbWritesTheRelativeBase : Obligations.OnlyArbWritesTheRelativeBase := by
  intro s t i hexec
  have he := effect_of_exec hexec
  have hrb : t.me.rb = s.me.rb ∨ ∃ a x, i = .arb a ∧ s.src1 a = .ok x ∧ t.me.rb = s.wrap (s.me.rb + x) := by
    by_cases ha : s.active < s.insts.length
    · exact effect_rb ha he
    · exact .inl (by rw [me_of_absent (Nat.le_of_not_lt ha) (effect_elsewhere he)])
  refine ⟨fun j hj => by rw [effect_others he hj], fun hi => ?_, ?_⟩
  · rcases hrb with hsame | ⟨a, -, harb, -⟩
    · exact hsame
    · exact absurd harb (hi a)
  · rintro a rfl hne
    rcases hrb with hsame | ⟨a', x, harb, hx, hnew⟩
    · exact absurd hsame hne
    · cases harb
      exact ⟨x, hx, hnew⟩

/-- A machine that has stopped has no enabled step (R142). -/
theorem not_final_of_canStep {s : State} {i : Nat} (h : s.canStep i = true) : (s.inst i).estate.final = false := by
  unfold State.canStep at h
  cases hs : (s.inst i).estate <;> simp_all [EState.final]

/-- Settles O42: the detector changes no machine, and an instruction only the one that is granted the step, which has not stopped. -/
theorem instancesAreIsolatedAndFinalOnesFrozen : Obligations.InstancesAreIsolatedAndFinalOnesFrozen := by
  intro s t j hn hstep
  rcases step_cases hstep with ⟨hconf, -⟩ | ⟨-, -, rfl⟩ | ⟨-, k, hk, hrun⟩
  · exact absurd (hn.symm.trans hconf) (by decide)
  · exact ⟨fun _ => rfl, fun _ => rfl⟩
  · obtain ⟨-, hstep⟩ := mem_enabled.mp hk
    have hframe := runActive_elsewhere hrun
    have hactive : t.active = k := hframe.active
    have hothers : j ≠ k → t.inst j = s.inst j := hframe.others j
    refine ⟨fun hj => hothers (hactive ▸ hj), fun hfinal => hothers ?_⟩
    rintro rfl
    exact absurd (not_final_of_canStep hstep) (by simp [hfinal])

/-! ### A network just built -/

/-- Settles O31: every machine of a network just built is fresh, and a fresh memory holds PROGRAM and zeros. -/
theorem buildGivesTheResetValues : Obligations.BuildGivesTheResetValues := by
  intro c
  refine ⟨List.length_replicate, fun i hi => ?_⟩
  have hfresh := build_inst hi
  exact ⟨by rw [hfresh]; rfl, by rw [hfresh]; rfl, by rw [hfresh]; rfl, by rw [hfresh]; rfl,
    fun a ha => readAt_fresh hfresh ha⟩

/-- Every channel of a network just built reads empty and open (R293). -/
theorem build_chan (c : Config) (j : Nat) : (State.build c).chan j = Channel.fresh := by
  simp only [State.chan, State.build, List.getD_eq_getElem?_getD, List.getElem?_replicate]
  split <;> rfl

/-- A fresh machine runs and has no fault record (R47). -/
theorem fresh_faultRecord (program : List Int) :
    (Inst.fresh program).fault.isSome = true ↔ (Inst.fresh program).estate = .faulted :=
  iff_of_false Bool.false_ne_true (by simp [Inst.fresh])

theorem build_shape {c : Config} (h : c.wf = true) : (State.build c).Shape :=
  ⟨h, List.length_replicate, List.length_replicate⟩

theorem build_wordsOk {c : Config} (h : c.wf = true) : (State.build c).WordsOk where
  insts m hm := by
    obtain ⟨hfit, hlen⟩ := program_fits h
    rw [List.eq_of_mem_replicate hm]
    exact inst_wordsOk_fresh hfit hlen
  chans ch hch := by
    rw [List.eq_of_mem_replicate hch]
    exact fun v hv => absurd hv List.not_mem_nil
  lastOut v hv := by cases hv

theorem build_control (c : Config) : (State.build c).Control where
  faultRecord m hm := by
    rw [List.eq_of_mem_replicate hm]
    exact fresh_faultRecord _
  closedByProducer i hi := by
    rw [build_chan, build_inst (c := c) hi]
    exact iff_of_false Bool.false_ne_true Bool.false_ne_true
  closedAtStart _ := by
    rw [build_chan]
    exact iff_of_false Bool.false_ne_true (not_not_intro rfl)
  waitsBounded m hm hw := by
    rw [List.eq_of_mem_replicate hm] at hw
    cases hw
  capacity k j _ _ _ := by
    rw [build_chan]
    exact Nat.zero_le k
  configured _ := ⟨fun m hm => by rw [List.eq_of_mem_replicate hm]; rfl, rfl, rfl, rfl⟩
  running h := by cases h
  done h := by cases h
  faulted h := by cases h
  deadlocked h := by cases h

/-- Settles O49: the reset state is the network built with the default parameters, which R8 admits. -/
theorem resetMeetsTheInvariants : Obligations.ResetMeetsTheInvariants := by
  have hwf : Config.default.wf = true := by decide
  unfold Obligations.ResetMeetsTheInvariants
  rw [reset_eq_build]
  exact ⟨build_shape hwf, build_wordsOk hwf, build_control _⟩

end Sys2Proof.Proofs

/-!
PROOFS. The status registers agree (R37, R38, R244, R248 to R251): every step keeps `Control`. The start step gives it from the seeds alone; the
detector's step records what stands; and an instruction is split into what it does to the `closed` bits (`effect_closed`), to the lengths of the
channels (`effect_length`) and to the network's registers (`NetworkMove`).
-/

namespace Sys2Proof.Proofs
open Sys2Proof.Machine Sys2Proof.Laws

/-! ### The start step gives `Control` (R243, R245) -/

/-- Seeding closes `ch[0]` in single pass, and no other channel (R243, R245, R261). -/
theorem seeded_eq_cons {c : Config} (h : c.wf = true) :
    ∃ first rest, seeded c = first :: rest ∧ first.closed = !c.feedback ∧ ∀ ch ∈ rest, ch.closed = false := by
  have hpos := instances_pos h
  unfold Config.instances at hpos
  unfold seeded Config.feedback
  cases he : c.entry with
  | network phases feedback drive =>
    cases phases with
    | nil => simp [he] at hpos
    | cons p ps =>
      refine ⟨_, _, rfl, rfl, fun ch hch => ?_⟩
      rcases List.mem_append.mp hch with hin | hsink
      · obtain ⟨q, -, rfl⟩ := List.mem_map.mp hin
        rfl
      · cases feedback with
        | true => cases hsink
        | false => rw [List.mem_singleton.mp hsink]; rfl
  | runOnce inputs =>
    refine ⟨_, _, rfl, rfl, fun ch hch => ?_⟩
    rw [List.mem_singleton.mp hch]
    rfl

theorem start_closed {s : State} (h : s.cfg.wf = true) (j : Nat) :
    (s.start.chan j).closed = true ↔ j = 0 ∧ s.cfg.feedback = false := by
  obtain ⟨first, rest, hseeded, hfirst, hrest⟩ := seeded_eq_cons h
  unfold State.chan
  rw [start_chans, hseeded]
  cases j with
  | zero => simp [hfirst]
  | succ n =>
    have hopen : (rest.getD n Channel.fresh).closed = false := by
      by_cases hn : n < rest.length
      · rw [List.getD_eq_getElem _ _ hn]
        exact hrest _ (List.getElem_mem hn)
      · rw [List.getD_eq_default _ _ (Nat.le_of_not_lt hn)]
        rfl
    rw [List.getD_cons_succ, hopen]
    simp

/-- Seeding puts at most two values into a channel of a network (R243). -/
theorem seeded_length_le_two {c : Config} (h : c.isRunOnce = false) {ch : Channel} (hch : ch ∈ seeded c) :
    ch.buf.length ≤ 2 := by
  unfold seeded at hch
  unfold Config.isRunOnce at h
  cases he : c.entry with
  | runOnce inputs => simp [he] at h
  | network phases feedback drive =>
    simp only [he] at hch
    rcases List.mem_append.mp hch with hin | hsink
    · cases phases with
      | nil => cases hin
      | cons p ps =>
        rcases List.mem_cons.mp hin with rfl | hin
        · simp
        · obtain ⟨q, -, rfl⟩ := List.mem_map.mp hin
          simp
    · cases feedback with
      | true => cases hsink
      | false => rw [List.mem_singleton.mp hsink]; simp [Channel.fresh]

/-- A bounded CHAN_CAP has room for the two seeds of `ch[0]` (R84, R243). -/
theorem two_le_of_bounded {c : Config} (h : c.wf = true) {k : Nat} (hk : c.chanCap = .bounded k) : 2 ≤ k := by
  simp only [Config.wf, Bool.and_eq_true, hk, Capacity.wf, decide_eq_true_eq] at h
  obtain ⟨⟨⟨⟨-, hcap⟩, -⟩, -⟩, -⟩ := h
  exact hcap

/-- In single pass no machine writes into `ch[0]` (R241). -/
theorem outChannel_ne_zero {c : Config} {i : Nat} (hi : i < c.instances) (h : c.feedback = false) :
    c.outChannel i ≠ 0 := by
  unfold Config.outChannel
  split
  · omega
  · rw [if_neg (by simp [h])]
    omega

/-- The start step gives `Control` whatever the Configured network held; its network registers are still those of a built one. -/
theorem start_control {s : State} (hs : s.Shape) (h : s.Control) (hn : s.nstate = .configured) : s.start.Control := by
  obtain ⟨-, -, hnfault, hdeadlock⟩ := h.configured hn
  have hwf := hs.cfgOk
  have hterminal : s.cfg.terminal < s.cfg.instances := Nat.sub_lt (instances_pos hwf) Nat.one_pos
  have hfresh : ∀ m ∈ s.start.insts, m = Inst.fresh s.cfg.program := fun m hm => List.eq_of_mem_replicate hm
  exact {
    faultRecord := fun m hm => by
      rw [hfresh m hm]
      exact fresh_faultRecord _
    closedByProducer := fun i hi => by
      rw [start_closed hwf, start_inst (s := s) hi]
      exact iff_of_false (fun ⟨h0, hf⟩ => outChannel_ne_zero hi hf h0) Bool.false_ne_true
    closedAtStart := fun hf => by
      rw [start_closed hwf]
      exact iff_of_true ⟨rfl, hf⟩ (by simp)
    waitsBounded := fun m hm hw => by
      rw [hfresh m hm] at hw
      cases hw
    capacity := fun k j hk honce hj => by
      have hlen : j < s.start.chans.length := by
        rw [start_chans, seeded_length]
        exact Nat.lt_of_lt_of_le hj (instances_le_channels _)
      exact (seeded_length_le_two honce (chan_mem hlen)).trans (two_le_of_bounded hwf hk)
    configured := fun hc => by cases hc
    running := fun _ => by
      refine ⟨fun m hm => ?_, ?_, hnfault, hdeadlock⟩
      · rw [hfresh m hm]
        exact EState.noConfusion
      · rw [start_cfg, start_inst hterminal]
        exact EState.noConfusion
    done := fun hd => by cases hd
    faulted := fun hf => by cases hf
    deadlocked := fun hd => by cases hd }

/-- The detector's step keeps `Control`: it records the machines as they stand (R251). -/
theorem detectDeadlock_control {s : State} (h : s.Control) (hn : s.nstate = .running) (he : s.enabled = []) :
    s.detectDeadlock.Control := by
  obtain ⟨-, -, hnfault, -⟩ := h.running hn
  exact
    { faultRecord := h.faultRecord
      closedByProducer := h.closedByProducer
      closedAtStart := fun hf => (h.closedAtStart hf).trans (iff_of_true (by simp [hn]) (by simp [State.detectDeadlock]))
      waitsBounded := h.waitsBounded
      capacity := h.capacity
      configured := fun hc => by cases hc
      running := fun hr => by cases hr
      done := fun hd => by cases hd
      faulted := fun hf => by cases hf
      deadlocked := fun _ => ⟨hnfault, rfl, he⟩ }

/-! ### What an effect does to the channels and to the network's registers -/

/-- A Close closes its channel and no other (R87). -/
theorem closed_close {s : State} {k : Nat} (hk : k < s.chans.length) (j : Nat) :
    ((s.close k).chan j).closed = true ↔ (s.chan j).closed = true ∨ j = k := by
  by_cases hj : j = k
  · subst hj
    rw [chan_close_self hk, shut_closed]
    simp
  · rw [chan_close_ne s hj]
    simp [hj]

/-- An instruction closes its machine's output channel when it stops the machine, and no other (R157). -/
theorem effect_closed {s t : State} {i : Instr} (ha : s.active < s.insts.length) (hout : s.outIndex < s.chans.length)
    (he : Effect s i t) (j : Nat) :
    (t.chan j).closed = true ↔ (s.chan j).closed = true ∨ (j = s.outIndex ∧ t.me.estate.final = true) := by
  rcases effect_ends ha he with ⟨hend, f, rfl⟩ | ⟨hend, -, rfl⟩ | ⟨hlive, -, -, -, -, hclosed⟩
  · rw [hend, raise_chan, closed_close hout]
    simp [EState.final]
  · rw [hend, halt_chan, closed_close hout]
    simp [EState.final]
  · rw [hclosed, hlive]
    simp

/-- Changing the values of channel `k` changes those of no other channel. -/
theorem buf_setChan_withBuf (s : State) (k : Nat) (b : List Int) (j : Nat) :
    ((s.setChan k ((s.chan k).withBuf b)).chan j).buf = (s.chan j).buf ∨
    (j = k ∧ ((s.setChan k ((s.chan k).withBuf b)).chan j).buf = b) := by
  by_cases hj : j = k
  · subst hj
    by_cases hl : j < s.chans.length
    · exact .inr ⟨rfl, by rw [chan_setChan_self hl, withBuf_buf]⟩
    · exact .inl (by rw [chan_absent (by simpa using hl), chan_absent (by simpa using hl)])
  · exact .inl (by rw [chan_setChan_ne s _ hj])

/-- An instruction lengthens no channel but its machine's output channel where that is not full, by one value (R86). -/
theorem effect_length {s t : State} {i : Instr} (he : Effect s i t) (j : Nat) :
    (t.chan j).buf.length ≤ (s.chan j).buf.length ∨
    (s.full j = false ∧ (t.chan j).buf.length = (s.chan j).buf.length + 1) := by
  cases he with
  | input d ea v rest dest value =>
    refine .inl ?_
    show ((s.setChan s.active ((s.chan s.active).withBuf rest)).chan j).buf.length ≤ _
    rcases buf_setChan_withBuf s s.active rest j with hsame | ⟨rfl, hrest⟩
    · rw [hsame]
    · rw [hrest, value]
      exact Nat.le_succ _
  | pushed a v operand live room =>
    rw [tap_chan]
    rcases buf_setChan_withBuf s s.outIndex ((s.chan s.outIndex).buf ++ [v]) j with hsame | ⟨rfl, happ⟩
    · exact .inl (congrArg List.length hsame).le
    · exact .inr ⟨room, (congrArg List.length happ).trans List.length_append⟩
  | dropped => exact .inl (by rw [tap_chan]; exact Nat.le_refl _)
  | raised => exact .inl (by rw [raise_chan, buf_close])
  | halted => exact .inl (by rw [halt_chan, buf_close])
  | _ => exact .inl (Nat.le_refl _)

/-- A bounded channel of a machine that is not full has room for one value more (R84). -/
theorem length_lt_of_not_full {s : State} {j k : Nat} (hk : s.cfg.chanCap = .bounded k) (hj : j < s.cfg.instances)
    (h : s.full j = false) : (s.chan j).buf.length < k := by
  simpa [State.full, hk, hj] using h

/-- No channel is full under an unbounded CHAN_CAP (R84). -/
theorem bounded_of_full {s : State} {j : Nat} (h : s.full j = true) : s.cfg.chanCap ≠ .unbounded := by
  intro hu
  simp [State.full, hu] at h

/-- How an instruction moves the network's registers (R248 to R250; the `runOnce` that halts silently as log 7 reads R261). -/
inductive NetworkMove (s t : State) : Prop where
  /-- The machine faulted, and the network with it. -/
  | faulted (r : FaultRec) (estate : t.me.estate = .faulted) (record : t.me.fault = some r)
      (nstate : t.nstate = .faulted) (nfault : t.nfault = some (s.active, .recorded r))
  /-- The terminal machine halted and the network is Done. -/
  | done (terminal : s.active = s.cfg.terminal) (estate : t.me.estate = .halted)
      (output : t.lastOut.isSome = true ∨ s.cfg.isRunOnce = true) (nstate : t.nstate = .done) (nfault : t.nfault = s.nfault)
  /-- The terminal machine of a network halted and nothing was ever pushed. -/
  | noOutput (terminal : s.active = s.cfg.terminal) (estate : t.me.estate = .halted) (silent : t.lastOut = none)
      (notOnce : s.cfg.isRunOnce = false) (nstate : t.nstate = .faulted) (nfault : t.nfault = some (s.active, .noOutput))
  /-- The network goes on. -/
  | goesOn (live : t.me.estate ≠ .faulted) (notEnd : s.active = s.cfg.terminal → t.me.estate ≠ .halted)
      (nstate : t.nstate = s.nstate) (nfault : t.nfault = s.nfault)

theorem halt_network {s : State} (ha : s.active < s.insts.length) : NetworkMove s s.halt := by
  have hme : s.halt.me.estate = .halted := by rw [me_halt ha, withEState_estate]
  rcases endByHalt_cases ((s.setMe (s.me.withEState .halted)).close s.outIndex) with
    ⟨hother, hend⟩ | ⟨hterminal, houtput, hend⟩ | ⟨hterminal, hsilent, honce, hend⟩
  · exact .goesOn (by simp [hme]) (fun h => absurd h hother) (by rw [State.halt, hend]; rfl) (by rw [State.halt, hend]; rfl)
  · exact .done hterminal hme (by rwa [halt_lastOut]) (by rw [State.halt, hend]) (by rw [State.halt, hend]; rfl)
  · exact .noOutput hterminal hme (by rwa [halt_lastOut]) honce (by rw [State.halt, hend]) (by rw [State.halt, hend]; rfl)

theorem effect_network {s t : State} {i : Instr} (ha : s.active < s.insts.length) (he : Effect s i t) :
    NetworkMove s t := by
  rcases effect_ends ha he with ⟨hend, f, rfl⟩ | ⟨-, -, rfl⟩ | ⟨hlive, hnstate, hnfault, -⟩
  · exact .faulted (s.faultRec f) hend (by rw [me_raise ha, faultedBy_fault]) rfl rfl
  · exact halt_network ha
  · exact .goesOn (fun h => by simp [h, EState.final] at hlive) (fun _ h => by simp [h, EState.final] at hlive)
      hnstate hnfault

/-- An instruction of a machine that had not stopped leaves it a fault record exactly where it faulted (R38, R224). -/
theorem effect_faultRecord {s t : State} {i : Instr} (ha : s.active < s.insts.length) (he : Effect s i t)
    (hrecord : s.me.fault.isSome = true ↔ s.me.estate = .faulted) (hlive : s.me.estate.final = false) :
    t.me.fault.isSome = true ↔ t.me.estate = .faulted := by
  have hclean : ¬s.me.fault.isSome = true := fun h => by simp [hrecord.mp h, EState.final] at hlive
  rcases effect_ends ha he with ⟨hend, f, rfl⟩ | ⟨hend, -, rfl⟩ | ⟨hnext, -, -, hfault, -⟩
  · exact iff_of_true (by simp [me_raise ha]) hend
  · exact iff_of_false (by rwa [me_halt ha, withEState_fault]) (by simp [hend])
  · exact iff_of_false (by rwa [hfault]) (fun h => by simp [h, EState.final] at hnext)

/-- A machine waits for output only where its output channel can be full (R37). -/
theorem effect_waitsBounded {s t : State} {i : Instr} (ha : s.active < s.insts.length) (he : Effect s i t)
    (hw : t.me.estate = .waitingOnOutput) : s.cfg.chanCap ≠ .unbounded := by
  rcases effect_ends ha he with ⟨hend, -⟩ | ⟨hend, -⟩ | ⟨-, -, -, -, hfull, -⟩
  · simp [hend] at hw
  · simp [hend] at hw
  · exact bounded_of_full (hfull hw)

/-! ### Every step keeps `Control` -/

theorem grant_control {s : State} (h : s.Control) (k : Nat) : (s.grant k).Control :=
  ⟨h.faultRecord, h.closedByProducer, h.closedAtStart, h.waitsBounded, h.capacity, h.configured, h.running, h.done,
    h.faulted, h.deadlocked⟩

/-- A machine of a Running network that has not stopped runs an instruction. -/
structure LiveEffect (s : State) (i : Instr) (t : State) : Prop where
  shape : s.Shape
  control : s.Control
  running : s.nstate = .running
  active : s.active < s.insts.length
  live : s.me.estate.final = false
  effect : Effect s i t

namespace LiveEffect
variable {s t : State} {i : Instr}

theorem active_lt (h : LiveEffect s i t) : s.active < s.cfg.instances := h.shape.instCount ▸ h.active

theorem inst_active (h : LiveEffect s i t) : t.inst s.active = t.me := by
  rw [State.me, (effect_elsewhere h.effect).active]

theorem mem_insts (h : LiveEffect s i t) {m : Inst} (hm : m ∈ t.insts) : m = t.me ∨ m ∈ s.insts :=
  mem_insts_of_elsewhere (effect_elsewhere h.effect) hm

theorem network (h : LiveEffect s i t) : NetworkMove s t := effect_network h.active h.effect

theorem closed (h : LiveEffect s i t) (j : Nat) :
    (t.chan j).closed = true ↔ (s.chan j).closed = true ∨ (j = s.outIndex ∧ t.me.estate.final = true) := by
  refine effect_closed h.active ?_ h.effect j
  rw [h.shape.chanCount]
  exact outChannel_lt h.active_lt

/-- An instruction keeps the network Running or ends it as Done or Faulted (R244). -/
theorem nstate (h : LiveEffect s i t) : t.nstate = .running ∨ t.nstate = .done ∨ t.nstate = .faulted := by
  cases h.network with
  | faulted _ _ _ nstate => exact .inr (.inr nstate)
  | done _ _ _ nstate => exact .inr (.inl nstate)
  | noOutput _ _ _ _ nstate => exact .inr (.inr nstate)
  | goesOn _ _ nstate => exact .inl (nstate.trans h.running)

theorem deadlock (h : LiveEffect s i t) : t.deadlock = none := by
  obtain ⟨-, -, -, hdeadlock⟩ := h.control.running h.running
  exact (effect_elsewhere h.effect).deadlock.trans hdeadlock

theorem faultRecord (h : LiveEffect s i t) {m : Inst} (hm : m ∈ t.insts) :
    m.fault.isSome = true ↔ m.estate = .faulted := by
  rcases h.mem_insts hm with rfl | hold
  · exact effect_faultRecord h.active h.effect (h.control.faultRecord _ (inst_mem h.active)) h.live
  · exact h.control.faultRecord m hold

/-- The active machine's output channel was open and is closed when it stops; no other machine has that channel (R83). -/
theorem closedByProducer (h : LiveEffect s i t) {k : Nat} (hk : k < s.cfg.instances) :
    (t.chan (s.cfg.outChannel k)).closed = true ↔ (t.inst k).estate.final = true := by
  have hbefore := h.control.closedByProducer k hk
  rw [h.closed]
  by_cases hka : k = s.active
  · subst hka
    have hopen : ¬(s.chan (s.cfg.outChannel s.active)).closed = true := by
      rw [hbefore]
      exact Bool.eq_false_iff.mp h.live
    rw [h.inst_active]
    exact ⟨fun hc => (hc.resolve_left hopen).2, fun hf => .inr ⟨rfl, hf⟩⟩
  · have hother : s.cfg.outChannel k ≠ s.outIndex := fun he => hka (outChannel_inj hk h.active_lt he)
    rw [effect_others h.effect hka, ← hbefore]
    exact or_iff_left fun hc => hother hc.1

/-- `ch[0]` of a single pass was closed before and no instruction opens it (R87, R245). -/
theorem closedAtStart (h : LiveEffect s i t) (hf : s.cfg.feedback = false) : (t.chan 0).closed = true := by
  have hbefore : (s.chan 0).closed = true := (h.control.closedAtStart hf).mpr (by simp [h.running])
  exact (h.closed 0).mpr (.inl hbefore)

theorem capacity (h : LiveEffect s i t) {k j : Nat} (hk : s.cfg.chanCap = .bounded k) (honce : s.cfg.isRunOnce = false)
    (hj : j < s.cfg.instances) : (t.chan j).buf.length ≤ k := by
  rcases effect_length h.effect j with hle | ⟨hroom, hlen⟩
  · exact hle.trans (h.control.capacity k j hk honce hj)
  · rw [hlen]
    exact length_lt_of_not_full hk hj hroom

theorem waitsBounded (h : LiveEffect s i t) {m : Inst} (hm : m ∈ t.insts) (hw : m.estate = .waitingOnOutput) :
    s.cfg.chanCap ≠ .unbounded := by
  rcases h.mem_insts hm with rfl | hold
  · exact effect_waitsBounded h.active h.effect hw
  · exact h.control.waitsBounded m hold hw

/-- While the network goes on, neither the active machine nor another has ended it. -/
theorem not_ended (h : LiveEffect s i t) (hn : t.nstate = .running) :
    (∀ m ∈ t.insts, m.estate ≠ .faulted) ∧ (t.inst s.cfg.terminal).estate ≠ .halted ∧ t.nfault = none := by
  obtain ⟨hclean, hterminal, hnfault, -⟩ := h.control.running h.running
  cases h.network with
  | faulted _ _ _ nstate => simp [nstate] at hn
  | done _ _ _ nstate => simp [nstate] at hn
  | noOutput _ _ _ _ nstate => simp [nstate] at hn
  | goesOn live notEnd _ nfault =>
    refine ⟨fun m hm => ?_, ?_, nfault.trans hnfault⟩
    · rcases h.mem_insts hm with rfl | hold
      · exact live
      · exact hclean m hold
    · by_cases ht : s.cfg.terminal = s.active
      · rw [ht, h.inst_active]
        exact notEnd ht.symm
      · rw [effect_others h.effect ht]
        exact hterminal

theorem of_done (h : LiveEffect s i t) (hn : t.nstate = .done) :
    (t.inst s.cfg.terminal).estate = .halted ∧ (t.lastOut.isSome = true ∨ s.cfg.isRunOnce = true) ∧ t.nfault = none := by
  obtain ⟨-, -, hnfault, -⟩ := h.control.running h.running
  cases h.network with
  | faulted _ _ _ nstate => simp [nstate] at hn
  | done terminal estate output _ nfault =>
    rw [← terminal, h.inst_active]
    exact ⟨estate, output, nfault.trans hnfault⟩
  | noOutput _ _ _ _ nstate => simp [nstate] at hn
  | goesOn _ _ nstate => simp [nstate, h.running] at hn

theorem of_faulted (h : LiveEffect s i t) (hn : t.nstate = .faulted) :
    (∃ k r, t.nfault = some (k, .recorded r) ∧ k < s.cfg.instances ∧ (t.inst k).fault = some r) ∨
    (t.nfault = some (s.cfg.terminal, .noOutput) ∧ (t.inst s.cfg.terminal).estate = .halted ∧ t.lastOut = none ∧
      s.cfg.isRunOnce = false) := by
  cases h.network with
  | faulted r _ record _ nfault => exact .inl ⟨s.active, r, nfault, h.active_lt, by rw [h.inst_active, record]⟩
  | done _ _ _ nstate => simp [nstate] at hn
  | noOutput terminal estate silent notOnce _ nfault =>
    rw [← terminal, h.inst_active]
    exact .inr ⟨nfault, estate, silent, notOnce⟩
  | goesOn _ _ nstate => simp [nstate, h.running] at hn

theorem control_after (h : LiveEffect s i t) : t.Control := by
  have hcfg := (effect_elsewhere h.effect).cfg
  have hnconf : t.nstate ≠ .configured := by rcases h.nstate with hn | hn | hn <;> simp [hn]
  have hndead : t.nstate ≠ .deadlocked := by rcases h.nstate with hn | hn | hn <;> simp [hn]
  refine
    { faultRecord := fun m hm => h.faultRecord hm
      configured := fun hn => absurd hn hnconf
      deadlocked := fun hn => absurd hn hndead
      closedByProducer := ?_, closedAtStart := ?_, waitsBounded := ?_, capacity := ?_, running := ?_, done := ?_
      faulted := ?_ } <;> rw [hcfg]
  · exact fun k hk => h.closedByProducer hk
  · exact fun hf => iff_of_true (h.closedAtStart hf) hnconf
  · exact fun m hm hw => h.waitsBounded hm hw
  · exact fun k j hk honce hj => h.capacity hk honce hj
  · intro hn
    obtain ⟨hclean, hterminal, hnfault⟩ := h.not_ended hn
    exact ⟨hclean, hterminal, hnfault, h.deadlock⟩
  · intro hn
    obtain ⟨hhalted, houtput, hnfault⟩ := h.of_done hn
    exact ⟨hhalted, houtput, hnfault, h.deadlock⟩
  · exact fun hn => ⟨h.deadlock, h.of_faulted hn⟩

end LiveEffect

/-- Settles O47: the shape is `step_shape`; `Control` by cases on what a step can do. -/
theorem stepKeepsTheStatusRegistersConsistent : Obligations.StepKeepsTheStatusRegistersConsistent := by
  intro s t hs h hstep
  refine ⟨step_shape hs hstep, ?_⟩
  rcases step_cases hstep with ⟨hn, rfl⟩ | ⟨hn, he, rfl⟩ | ⟨hn, k, hk, hrun⟩
  · exact start_control hs h hn
  · exact detectDeadlock_control h hn he
  · obtain ⟨hlt, hcan⟩ := mem_enabled.mp hk
    obtain ⟨i, he⟩ := effect_of_runActive hrun
    have hgrant : (s.grant k).Shape := ⟨hs.cfgOk, hs.instCount, hs.chanCount⟩
    exact LiveEffect.control_after ⟨hgrant, grant_control h k, hn, hlt, not_final_of_canStep hcan, he⟩

end Sys2Proof.Proofs

/-!
PROOFS. Memory, the resolver and the channels: what a store changes (spec R62, R63) and which instructions store (R81), the resolver case by case
(R71 to R78, R225), and the channels as queues (R84 to R88).
-/

namespace Sys2Proof.Proofs
open Sys2Proof.Machine Sys2Proof.Laws

/-! ### Stores (R62, R63) -/

theorem memRead_memWrite_self {s : State} (h : s.Ready) {a : Nat} (ha : a < s.cfg.memWords) (v : Int) :
    (s.memWrite a v).memRead a = v := by
  rw [State.memWrite, memRead_eq, me_setMe h.active, setMe_cfg, if_neg (Nat.not_le_of_lt ha), withMem_mem,
    read_write_self h.form]

theorem memRead_memWrite_ne {s : State} (h : s.active < s.insts.length) {a b : Nat} (hb : b ≠ a) (v : Int) :
    (s.memWrite a v).memRead b = s.memRead b := by
  rw [State.memWrite, memRead_eq, memRead_eq, me_setMe h, setMe_cfg, withMem_mem, read_write_ne _ v hb]

/-- A machine that is left alone reads as before, under the same MEM_WORDS. -/
theorem readAt_congr {s t : State} {j : Nat} (hc : t.cfg = s.cfg) (hj : t.inst j = s.inst j) (a : Nat) :
    t.readAt j a = s.readAt j a := by
  rw [State.readAt, State.readAt, hc, hj]

/-- Settles O7: a read after a store, at the same address, at another one, in another machine and outside the memory. -/
theorem storeChangesOneWord : Obligations.StoreChangesOneWord := by
  intro s a v h ha
  refine ⟨memRead_memWrite_self h ha v, fun b hb => memRead_memWrite_ne h.active hb v, fun j b hj => ?_, fun b hb => ?_⟩
  · exact readAt_congr (s := s) (t := s.memWrite a v) rfl (inst_setMe_ne s _ hj) b
  · rw [memRead_eq, if_pos hb]

/-! ### The resolver (R71 to R78) -/

section Resolver
variable {s : State} {p : Nat} {m : Mode}

theorem resolve_of_negative_slot (hslot : s.slot p < 0) (isDest : Bool) :
    s.resolve p m isDest = .error (addressFault p (s.slot p)) := by
  rw [State.resolve, if_pos hslot]

theorem resolve_of_negative_address (hslot : 0 ≤ s.slot p) (hea : s.effective m (s.slot p).toNat < 0) (isDest : Bool) :
    s.resolve p m isDest = .error (addressFault p (s.effective m (s.slot p).toNat)) := by
  rw [State.resolve, if_neg hslot.not_gt]
  exact if_pos hea

theorem resolve_dest_beyond_memory (hslot : 0 ≤ s.slot p) (hea : 0 ≤ s.effective m (s.slot p).toNat)
    (hmem : (s.cfg.memWords : Int) ≤ s.effective m (s.slot p).toNat) :
    s.resolve p m true = .error (capacityFault p (s.effective m (s.slot p).toNat)) := by
  have hbeyond : s.cfg.memWords ≤ (s.effective m (s.slot p).toNat).toNat := by omega
  simp [State.resolve, hslot.not_gt, hea.not_gt, hbeyond]

theorem resolve_of_legal_address {isDest : Bool} (hslot : 0 ≤ s.slot p) (hea : 0 ≤ s.effective m (s.slot p).toNat)
    (hdest : isDest = true → s.effective m (s.slot p).toNat < (s.cfg.memWords : Int)) :
    s.resolve p m isDest = .ok (s.effective m (s.slot p).toNat).toNat := by
  have hinside : isDest = true → (s.effective m (s.slot p).toNat).toNat < s.cfg.memWords := fun hd => by
    have := hdest hd
    omega
  simpa [State.resolve, hslot.not_gt, hea.not_gt] using hinside

/-- The address that a mode makes is a Word: it was read from memory, is the slot's own, or is wrapped. -/
theorem effective_fits (hw : s.WordsOk) (ha : s.active < s.insts.length) (hW : 1 ≤ s.cfg.wordBits)
    (hslot : 0 ≤ s.slot p) : fits s.cfg.wordBits (s.effective m (s.slot p).toNat) := by
  cases m with
  | position => exact memRead_fits hw ha _
  | immediate =>
    have haddr : s.effective .immediate (s.slot p).toNat = s.slot p := Int.toNat_of_nonneg hslot
    rw [haddr]
    exact wrap_fits hW _
  | relative => exact wrap_fits hW _

end Resolver

/-- Settles O8: the address that the statement writes out is `effective` of the slot; each case is then one of the resolver's. -/
theorem resolverFollowsItsProcedure : Obligations.ResolverFollowsItsProcedure := by
  intro s p m isDest slot ea hslot hea
  obtain rfl : slot = s.slot p := hslot
  have heff : 0 ≤ s.slot p → ea = s.effective m (s.slot p).toNat := by
    intro hpos
    rw [hea]
    cases m with
    | position => rfl
    | immediate => exact (Int.toNat_of_nonneg hpos).symm
    | relative => rfl
  refine ⟨fun hneg => resolve_of_negative_slot hneg isDest, fun hpos hneg => ?_, fun hpos h0 hdest hmem => ?_,
    fun hpos h0 hmem => ?_⟩
  all_goals obtain rfl := heff hpos
  · exact resolve_of_negative_address hpos hneg isDest
  · rw [hdest]
    exact resolve_dest_beyond_memory hpos h0 hmem
  · exact resolve_of_legal_address hpos h0 hmem

/-- An AddressFault is no CapacityFault. -/
theorem addressFault_ne_capacityFault (p q : Nat) (a b : Int) : addressFault p a ≠ capacityFault q b := by
  simp [addressFault, capacityFault]

/-- Settles O9: the effective address is a Word, so it lies below `2^(W-1)` and passes the last check. -/
theorem defaultMemoryHasNoCapacityFault : Obligations.DefaultMemoryHasNoCapacityFault := by
  intro s p m isDest q a hs hw ha hmem hfault
  have hW : 1 ≤ s.cfg.wordBits := Nat.le_of_succ_le (two_le_wordBits hs.cfgOk)
  have hsize : (s.cfg.memWords : Int) = half s.cfg.wordBits := congrArg Nat.cast hmem
  rcases lt_or_ge (s.slot p) 0 with hslot | hslot
  · rw [resolve_of_negative_slot hslot] at hfault
    exact addressFault_ne_capacityFault _ _ _ _ (Except.error.inj hfault)
  · have hfits : fits s.cfg.wordBits (s.effective m (s.slot p).toNat) := effective_fits hw ha hW hslot
    rcases lt_or_ge (s.effective m (s.slot p).toNat) 0 with hea | hea
    · rw [resolve_of_negative_address hslot hea] at hfault
      exact addressFault_ne_capacityFault _ _ _ _ (Except.error.inj hfault)
    · rw [resolve_of_legal_address hslot hea fun _ => hsize ▸ hfits.2] at hfault
      cases hfault

/-! ### Which instructions store, and where (R81) -/

/-- `a` is the address that the destination parameter of `i` resolves to: parameter 2 of ADD, MUL, LT and EQ, and parameter 0 of IN. -/
def DestinationIs (s : State) (i : Instr) (a : Nat) : Prop :=
  (∃ m n d, (i = .add m n d ∨ i = .mul m n d ∨ i = .lt m n d ∨ i = .eq m n d) ∧ s.resolve 2 d true = .ok a) ∨
    ∃ d, i = .inp d ∧ s.resolve 0 d true = .ok a

/-- An instruction leaves its machine's memory as it is, or completes with one word stored at its destination. -/
theorem effect_mem {s t : State} {i : Instr} (ha : s.active < s.insts.length) (he : Effect s i t) :
    t.me.mem = s.me.mem ∨
    ∃ ea v, t.me.mem = Memory.write s.me.mem ea v ∧ t.me.estate = .running ∧ DestinationIs s i ea := by
  cases he with
  | stored _ a b d x y v ea form ops =>
    have hme := (congrArg State.me (memWrite_advance ha ea v 3)).trans (me_setMe ha _)
    obtain ⟨hdest, -, -⟩ := src2dst_inv ops
    refine .inr ⟨ea, v, by rw [hme]; rfl, by rw [hme]; rfl, .inl ⟨a, b, d, ?_, hdest⟩⟩
    exact form.imp And.left (.imp And.left (.imp And.left And.left))
  | input d ea v rest dest value =>
    have hme := me_memWrite_advance_setChan ha s.active ((s.chan s.active).withBuf rest) ea v 1
    exact .inr ⟨ea, v, by rw [hme]; rfl, by rw [hme]; rfl, .inr ⟨d, rfl, dest⟩⟩
  | raised _ f => exact .inl (by rw [me_raise ha, faultedBy_mem])
  | inputWaits => exact .inl (by rw [me_wait ha, withEState_mem])
  | dropped => exact .inl (by rw [tap_me, me_advance ha, completeAt_mem])
  | pushed => exact .inl (by rw [tap_me, me_advance_setChan ha, completeAt_mem])
  | outputWaits => exact .inl (by rw [me_wait ha, withEState_mem])
  | jumped => exact .inl (by rw [me_goTo ha, completeAt_mem])
  | passed => exact .inl (by rw [me_advance ha, completeAt_mem])
  | based => exact .inl (by rw [setRb_advance ha, me_setMe ha, completeAt_mem, withRb_mem])
  | halted => exact .inl (by rw [me_halt ha, withEState_mem])

/-- A word that reads otherwise after an instruction is the active machine's, at the destination, and the instruction completed. -/
theorem effect_changed_word {s t : State} {i : Instr} (he : Effect s i t) {j a : Nat}
    (hne : t.readAt j a ≠ s.readAt j a) : j = s.active ∧ t.me.estate = .running ∧ DestinationIs s i a := by
  have hframe := effect_elsewhere he
  have hj : j = s.active := by
    by_contra hj
    exact hne (readAt_congr hframe.cfg (hframe.others j hj) a)
  subst hj
  have hme : t.inst s.active = t.me := by rw [State.me, hframe.active]
  have hmem : Memory.read t.me.mem a ≠ Memory.read s.me.mem a := fun hsame =>
    hne (by rw [State.readAt, State.readAt, hframe.cfg, hme, hsame]; rfl)
  have ha : s.active < s.insts.length := by
    by_contra ha
    exact hmem (by rw [me_of_absent (Nat.le_of_not_lt ha) hframe])
  rcases effect_mem ha he with hsame | ⟨ea, v, hwrite, hrunning, hdest⟩
  · exact absurd (by rw [hsame]) hmem
  · have haddr : a = ea := by
      by_contra haddr
      exact hmem (by rw [hwrite, read_write_ne _ v haddr])
    exact ⟨rfl, hrunning, haddr ▸ hdest⟩

theorem runActive_of_fetched {s : State} {i : Instr} (h : s.fetch = .ok i) : s.runActive = exec i s := by
  rw [State.runActive, h]

/-- A fault, at whatever stage, stores nothing (R148). -/
theorem readAt_raise (s : State) (f : FaultInfo) (j a : Nat) : (s.raise f).readAt j a = s.readAt j a := by
  have hmem : ((s.raise f).inst j).mem = (s.inst j).mem := by
    rw [raise_inst, inst_setMe]
    split
    · rename_i hj
      rw [hj.1]
      rfl
    · rfl
  rw [State.readAt, State.readAt, raise_cfg, hmem]

/-- Settles O40: a fault at fetch or decode stores nothing, and an instruction only as `effect_changed_word` says. -/
theorem onlyTheDestinationIsWritten : Obligations.OnlyTheDestinationIsWritten := by
  intro s t j a hne
  have hexec : ∀ i, exec i s = .next t → j = s.active ∧ t.me.estate = .running ∧ DestinationIs s i a :=
    fun i h => effect_changed_word (effect_of_exec h) hne
  refine ⟨fun hrun => ?_, hexec⟩
  obtain ⟨t', hrun', hcase⟩ := runActive_cases s
  obtain rfl : t = t' := Host.Outcome.next.inj (hrun.symm.trans hrun')
  rcases hcase with ⟨f, -, rfl⟩ | ⟨i, hfetch, -⟩
  · exact absurd (readAt_raise s f j a) hne
  · have hi : exec i s = .next t := (runActive_of_fetched hfetch).symm.trans hrun
    obtain ⟨hj, hrunning, -⟩ := hexec i hi
    exact ⟨hj, hrunning, i, hfetch, hi⟩

/-! ### Pop and Push (R84 to R86) -/

/-- Changing the values of a channel changes nothing else of the state. -/
theorem setChan_withBuf_frame {s : State} {j : Nat} (h : j < s.chans.length) (b : List Int) :
    let t := s.setChan j ((s.chan j).withBuf b)
    (t.chan j).buf = b ∧ (t.chan j).closed = (s.chan j).closed ∧ (∀ k, k ≠ j → t.chan k = s.chan k) ∧
      t = { s with chans := t.chans } :=
  ⟨by rw [chan_setChan_self h, withBuf_buf], closed_setChan_withBuf s j b j, fun _ hk => chan_setChan_ne s _ hk, rfl⟩

/-- Settles O35: Pop by the channel's values, and by `closed` where there are none. -/
theorem popTakesTheOldestValue : Obligations.PopTakesTheOldestValue := by
  intro s j hj
  refine ⟨fun v rest hbuf => ?_, fun hbuf hclosed => ?_, fun hbuf hopen => ?_⟩
  · have hpop : s.pop j = .value v (s.setChan j ((s.chan j).withBuf rest)) := by simp [State.pop, hbuf]
    exact ⟨_, hpop, setChan_withBuf_frame hj rest⟩
  · simp [State.pop, hbuf, hclosed]
  · simp [State.pop, hbuf, hopen]

theorem final_iff (e : EState) : e.final = true ↔ e = .halted ∨ e = .faulted := by
  cases e <;> simp [EState.final]

theorem consumerStopped_iff (s : State) (j : Nat) :
    s.consumerStopped j = true ↔
      j < s.cfg.instances ∧ ((s.inst j).estate = .halted ∨ (s.inst j).estate = .faulted) := by
  simp [State.consumerStopped, final_iff]

theorem full_iff (s : State) (j : Nat) :
    s.full j = true ↔ ∃ k, s.cfg.chanCap = .bounded k ∧ j < s.cfg.instances ∧ k ≤ (s.chan j).buf.length := by
  unfold State.full
  cases s.cfg.chanCap <;> simp

/-- Settles O36: `stopped` and `full` are the model's own two checks, in Push's order. -/
theorem pushAppendsDropsOrRefuses : Obligations.PushAppendsDropsOrRefuses := by
  intro s j v stopped full hj hstopped hfull
  rw [← consumerStopped_iff] at hstopped
  rw [← full_iff] at hfull
  rw [hstopped, hfull]
  refine ⟨fun hs => ?_, fun hs hf => ?_, fun hs hf => ?_⟩
  · simp [State.push, hs]
  · simp [State.push, hs, hf]
  · have hpush : s.push j v = .accepted (s.setChan j ((s.chan j).withBuf ((s.chan j).buf ++ [v]))) := by
      simp [State.push, hs, hf]
    exact ⟨_, hpush, setChan_withBuf_frame hj _⟩

/-! ### Channels are queues (R83, R87, R88) -/

/-- An instruction leaves a channel's values, or takes the oldest of its machine's input channel, or appends one to its output channel. -/
theorem effect_buf {s t : State} {i : Instr} (he : Effect s i t) (j : Nat) :
    (t.chan j).buf = (s.chan j).buf ∨
    (j = s.active ∧ ∃ v, (s.chan j).buf = v :: (t.chan j).buf) ∨
    (j = s.outIndex ∧ ∃ v, (t.chan j).buf = (s.chan j).buf ++ [v]) := by
  cases he with
  | input d ea v rest dest value =>
    rcases buf_setChan_withBuf s s.active rest j with hsame | ⟨rfl, hrest⟩
    · exact .inl hsame
    · exact .inr (.inl ⟨rfl, v, value.trans (congrArg (v :: ·) hrest.symm)⟩)
  | pushed a v operand live room =>
    rw [tap_chan]
    rcases buf_setChan_withBuf s s.outIndex ((s.chan s.outIndex).buf ++ [v]) j with hsame | ⟨rfl, happ⟩
    · exact .inl hsame
    · exact .inr (.inr ⟨rfl, v, happ⟩)
  | dropped => exact .inl (by rw [tap_chan]; rfl)
  | raised => exact .inl (by rw [raise_chan, buf_close])
  | halted => exact .inl (by rw [halt_chan, buf_close])
  | _ => exact .inl rfl

/-- A Close opens no channel, whether its channel is there or not (R87). -/
theorem closed_close_of_closed {s : State} {j : Nat} (k : Nat) (h : (s.chan j).closed = true) :
    ((s.close k).chan j).closed = true := by
  have hj : j < s.chans.length := by
    by_contra hj
    rw [chan_absent (Nat.le_of_not_lt hj)] at h
    exact absurd h Bool.false_ne_true
  by_cases hjk : j = k
  · subst hjk
    rw [chan_close_self hj, shut_closed]
  · rwa [chan_close_ne s hjk]

/-- No instruction opens a channel (R87). -/
theorem effect_closed_of_closed {s t : State} {i : Instr} (ha : s.active < s.insts.length) (he : Effect s i t) {j : Nat}
    (h : (s.chan j).closed = true) : (t.chan j).closed = true := by
  rcases effect_ends ha he with ⟨-, f, rfl⟩ | ⟨-, -, rfl⟩ | ⟨-, -, -, -, -, hclosed⟩
  · rw [raise_chan]
    exact closed_close_of_closed s.outIndex h
  · rw [halt_chan]
    exact closed_close_of_closed s.outIndex h
  · rwa [hclosed]

/-- Settles O43: the detector changes no channel, and an instruction of the machine that is granted the step as `effect_buf` says. -/
theorem channelsAreFifo : Obligations.ChannelsAreFifo := by
  intro s t j hn hstep
  rcases step_cases hstep with ⟨hconf, -⟩ | ⟨-, -, rfl⟩ | ⟨-, k, hk, hrun⟩
  · exact absurd (hn.symm.trans hconf) (by decide)
  · exact ⟨.inl rfl, id⟩
  · obtain ⟨hlt, -⟩ := mem_enabled.mp hk
    obtain ⟨i, he⟩ := effect_of_runActive hrun
    obtain rfl : t.active = k := (effect_elsewhere he).active
    exact ⟨effect_buf he j, effect_closed_of_closed (s := s.grant t.active) hlt he⟩

end Sys2Proof.Proofs

/-!
PROOFS. The decoder and the encoder (spec R111 to R124). Every row of the opcode map is decoded by the one loop of R120 (`decode_eq_loop`); what
the loop does with legal digits (`readModes_pass`) and what it accepts (`readModes_eq_instr`) are one induction each, over the parameters.
-/

namespace Sys2Proof.Proofs
open Sys2Proof.Machine Sys2Proof.Laws

/-! ### The decoder as the loop of R120 -/

/-- The loop of R120 for opcode `op` over the `c` parameters from `p`: it reads their modes from the word `n` and hands them to `k`. -/
def readModes (op n : Nat) : Nat → Nat → (List Mode → Decoded) → Decoded
  | _, 0, k => k []
  | p, c + 1, k => withMode n p (decide (destParam op = some p)) fun m => readModes op n (p + 1) c fun ms => k (m :: ms)

/-- The row of the opcode map (R113): the instruction with an opcode and as many modes as it has parameters. -/
def ofModes : Nat → List Mode → Instr
  | 1, [a, b, d] => .add a b d
  | 2, [a, b, d] => .mul a b d
  | 3, [d] => .inp d
  | 4, [a] => .out a
  | 5, [a, b] => .jt a b
  | 6, [a, b] => .jf a b
  | 7, [a, b, d] => .lt a b d
  | 8, [a, b, d] => .eq a b d
  | 9, [a] => .arb a
  | _, _ => .halt

/-- The opcode map by the number of parameters (R113). -/
theorem nparams_cases {op c : Nat} (h : nparams op = some c) :
    (c = 3 ∧ (op = 1 ∨ op = 2 ∨ op = 7 ∨ op = 8)) ∨ (c = 2 ∧ (op = 5 ∨ op = 6)) ∨
      (c = 1 ∧ (op = 3 ∨ op = 4 ∨ op = 9)) ∨ c = 0 ∧ op = 99 := by
  unfold nparams at h
  split at h <;> simp_all

theorem decode_of_neg {x : ExtraDigits} {w : Int} (hw : w < 0) : decode x w = .reject .negativeWord none :=
  if_pos hw

/-- An opcode that the map does not name is BadOpcode (R119). -/
theorem decode_of_no_opcode {x : ExtraDigits} {w : Int} (hw : 0 ≤ w) (hop : nparams (w.toNat % 100) = none) :
    decode x w = .reject .badOpcode none := by
  rw [decode, if_neg hw.not_gt]
  split
  case h_11 => rfl
  all_goals
    rename_i h
    rw [h] at hop
    cases hop

/-- R120: a word with an opcode is decoded by the loop over that opcode's parameters and the check of the digits above them. -/
theorem decode_eq_loop (x : ExtraDigits) {w : Int} {c : Nat} (hw : 0 ≤ w) (hop : nparams (w.toNat % 100) = some c) :
    decode x w = readModes (w.toNat % 100) w.toNat 0 c fun ms => finish x w.toNat c (ofModes (w.toNat % 100) ms) := by
  rw [decode, if_neg hw.not_gt]
  generalize w.toNat % 100 = op at hop
  rcases nparams_cases hop with
    ⟨rfl, rfl | rfl | rfl | rfl⟩ | ⟨rfl, rfl | rfl⟩ | ⟨rfl, rfl | rfl | rfl⟩ | ⟨rfl, rfl⟩ <;> rfl

/-- An instruction is its opcode and its modes. -/
theorem ofModes_opcode_modes (i : Instr) : ofModes i.opcode i.modes = i := by
  cases i <;> rfl

/-- The row of an opcode has that opcode and the modes it is given, where they are as many as it has parameters. -/
theorem opcode_modes_ofModes {op : Nat} {ms : List Mode} (h : nparams op = some ms.length) :
    (ofModes op ms).opcode = op ∧ (ofModes op ms).modes = ms := by
  rcases nparams_cases h with ⟨hlen, hop⟩ | ⟨hlen, hop⟩ | ⟨hlen, hop⟩ | ⟨hlen, rfl⟩
  · obtain ⟨a, b, d, rfl⟩ := List.length_eq_three.mp hlen
    rcases hop with rfl | rfl | rfl | rfl <;> exact ⟨rfl, rfl⟩
  · obtain ⟨a, b, rfl⟩ := List.length_eq_two.mp hlen
    rcases hop with rfl | rfl <;> exact ⟨rfl, rfl⟩
  · obtain ⟨a, rfl⟩ := List.length_eq_one_iff.mp hlen
    rcases hop with rfl | rfl | rfl <;> exact ⟨rfl, rfl⟩
  · obtain rfl := List.eq_nil_of_length_eq_zero hlen
    exact ⟨rfl, rfl⟩

/-! ### What the loop does and what it accepts -/

/-- The modes that the digits of `n` from parameter `p` on spell (R115, R116). -/
def Spells (n p : Nat) (ms : List Mode) : Prop :=
  ms.map Mode.digit = (List.range' p ms.length).map fun q => digit (2 + q) n

theorem spells_nil (n p : Nat) : Spells n p [] := rfl

theorem spells_cons {n p : Nat} {m : Mode} {ms : List Mode} :
    Spells n p (m :: ms) ↔ digit (2 + p) n = m.digit ∧ Spells n (p + 1) ms := by
  simp [Spells, List.range'_succ, eq_comm]

/-- No mode of the list, the first of which is parameter `p`'s, is Immediate at the destination of `op` (R117). -/
def DestsOk (op : Nat) : Nat → List Mode → Prop
  | _, [] => True
  | p, m :: ms => (destParam op = some p → m.destOk = true) ∧ DestsOk op (p + 1) ms

theorem wf_iff_destsOk (i : Instr) : i.wf = true ↔ DestsOk i.opcode 0 i.modes := by
  cases i <;> simp [Instr.wf, Instr.opcode, Instr.modes, DestsOk, destParam]

/-- A digit that the loop of R120 goes past at parameter `q`: it is a mode, and not Immediate at the destination. -/
def LegalDigit (op n q : Nat) : Prop :=
  digit (2 + q) n ≤ 2 ∧ ¬(destParam op = some q ∧ digit (2 + q) n = 1)

/-- The loop goes past `j` legal digits with the modes they spell. -/
theorem readModes_pass {op n : Nat} (j : Nat) {p : Nat} (hlegal : ∀ q, p ≤ q → q < p + j → LegalDigit op n q) (c : Nat)
    (k : List Mode → Decoded) :
    ∃ ms, ms.length = j ∧ Spells n p ms ∧
      readModes op n p (j + c) k = readModes op n (p + j) c fun rest => k (ms ++ rest) := by
  induction j generalizing p k with
  | zero => exact ⟨[], rfl, spells_nil n p, by simp⟩
  | succ j ih =>
    obtain ⟨hle, hdest⟩ := hlegal p le_rfl (by omega)
    obtain ⟨m, hm, -, hpass⟩ := withMode_passes (isDest := decide (destParam op = some p))
      (k := fun m => readModes op n (p + 1) (j + c) fun ms => k (m :: ms)) hle
      fun hd h1 => hdest ⟨of_decide_eq_true hd, h1⟩
    obtain ⟨ms, hlen, hspells, hrest⟩ := ih (p := p + 1) (fun q h1 h2 => hlegal q (by omega) (by omega)) fun ms => k (m :: ms)
    refine ⟨m :: ms, by simp [hlen], spells_cons.mpr ⟨hm.symm, hspells⟩, ?_⟩
    rw [Nat.add_right_comm, readModes, hpass, hrest, Nat.add_assoc, Nat.add_comm 1]
    rfl

/-- The loop answers an instruction exactly where the digits spell legal modes from which `k` makes it. -/
theorem readModes_eq_instr {op n : Nat} {i : Instr} (c : Nat) {p : Nat} {k : List Mode → Decoded} :
    readModes op n p c k = .instr i ↔
      ∃ ms, ms.length = c ∧ Spells n p ms ∧ DestsOk op p ms ∧ k ms = .instr i := by
  induction c generalizing p k with
  | zero =>
    constructor
    · exact fun h => ⟨[], rfl, spells_nil n p, trivial, h⟩
    · rintro ⟨ms, hlen, -, -, hk⟩
      rwa [List.eq_nil_of_length_eq_zero hlen] at hk
  | succ c ih =>
    simp only [readModes, withMode_eq_instr, ih, decide_eq_true_eq]
    constructor
    · rintro ⟨m, hm, hdest, ms, hlen, hspells, hdests, hk⟩
      exact ⟨m :: ms, by simp [hlen], spells_cons.mpr ⟨hm, hspells⟩, ⟨hdest, hdests⟩, hk⟩
    · rintro ⟨_ | ⟨m, ms⟩, hlen, hspells, hdests, hk⟩
      · cases hlen
      · obtain ⟨hm, hspells⟩ := spells_cons.mp hspells
        obtain ⟨hdest, hdests⟩ := hdests
        exact ⟨m, hm, hdest, ms, Nat.succ.inj hlen, hspells, hdests, hk⟩

/-! ### The words of an instruction -/

theorem mode_digit_lt (m : Mode) : m.digit < 10 := by
  cases m <;> decide

/-- Digits from parameter `p` on spell modes exactly where they are the number that the encoder makes of the modes (R111). -/
theorem spells_iff_modeDigits {n p : Nat} {ms : List Mode} :
    Spells n p ms ↔ n / 10 ^ (2 + p) % 10 ^ ms.length = modeDigits ms := by
  induction ms generalizing p with
  | nil => simp [spells_nil, modeDigits, Nat.mod_one]
  | cons m ms ih =>
    have hm := mode_digit_lt m
    have hdiv : n / 10 ^ (2 + (p + 1)) = n / 10 ^ (2 + p) / 10 := by
      rw [← Nat.add_assoc, Nat.pow_succ, Nat.div_div_eq_div_mul]
    rw [spells_cons, ih, hdiv, List.length_cons, Nat.pow_succ', Nat.mod_mul, modeDigits, digit]
    omega

/-- The layout of R111 and R123, which the model's laws say for each constructor. -/
theorem wordLayout (i : Instr) : WordLayout.Statement i :=
  match i with
  | .add a b d => WordLayout.add a b d
  | .mul a b d => WordLayout.mul a b d
  | .inp d => WordLayout.inp d
  | .out a => WordLayout.out a
  | .jt a b => WordLayout.jt a b
  | .jf a b => WordLayout.jf a b
  | .lt a b d => WordLayout.lt a b d
  | .eq a b d => WordLayout.eq a b d
  | .arb a => WordLayout.arb a
  | .halt => WordLayout.halt

theorem encode_toNat (i : Instr) : (encode i).toNat = i.opcode + 100 * modeDigits i.modes :=
  Int.toNat_natCast _

theorem opcode_lt (i : Instr) : i.opcode < 100 := by
  cases i <;> simp [Instr.opcode]

/-- The low `2+n` digits of a word are an instruction's word exactly where the opcode is its own and the digits spell its modes (R111). -/
theorem low_digits_iff {n : Nat} {i : Instr} :
    n % 10 ^ (2 + i.params) = (encode i).toNat ↔ n % 100 = i.opcode ∧ Spells n 0 i.modes := by
  have hop := opcode_lt i
  rw [encode_toNat, spells_iff_modeDigits, Nat.pow_add, Nat.mod_mul, Instr.params]
  norm_num only
  omega

/-- What the decoder accepts (R118, R120, R123), in both settings of EXTRA_DIGITS. -/
theorem decode_eq_instr {x : ExtraDigits} {w : Int} {i : Instr} :
    decode x w = .instr i ↔ i.wf = true ∧ 0 ≤ w ∧ w.toNat % 10 ^ (2 + i.params) = (encode i).toNat ∧
      (x = .fault → w.toNat / 10 ^ (2 + i.params) = 0) := by
  rw [low_digits_iff]
  constructor
  · intro h
    rcases lt_or_ge w 0 with hw | hw
    · rw [decode_of_neg hw] at h
      cases h
    cases hop : nparams (w.toNat % 100) with
    | none =>
      rw [decode_of_no_opcode hw hop] at h
      cases h
    | some c =>
      rw [decode_eq_loop x hw hop, readModes_eq_instr] at h
      obtain ⟨ms, rfl, hspells, hdests, hfinish⟩ := h
      obtain ⟨rfl, hextra⟩ := finish_eq_instr.mp hfinish
      obtain ⟨hopcode, hmodes⟩ := opcode_modes_ofModes hop
      rw [wf_iff_destsOk, Instr.params, hopcode, hmodes]
      exact ⟨hdests, hw, ⟨rfl, hspells⟩, hextra⟩
  · rintro ⟨hwf, hw, ⟨hop, hspells⟩, hextra⟩
    obtain ⟨-, -, hparams, -⟩ := wordLayout i hwf
    rw [← hop] at hparams
    rw [decode_eq_loop x hw hparams, readModes_eq_instr, hop]
    exact ⟨i.modes, rfl, hspells, (wf_iff_destsOk i).mp hwf, finish_eq_instr.mpr ⟨ofModes_opcode_modes i, hextra⟩⟩

/-! ### The round trip and its converses (R120, R123) -/

/-- Settles O3: the word of an instruction is its own low digits, and no digit stands above them. -/
theorem decodeOfEncodeIsTheInstruction : Obligations.DecodeOfEncodeIsTheInstruction := by
  intro x i hwf
  obtain ⟨hpos, -, -, hlt⟩ := wordLayout i hwf
  exact decode_eq_instr.mpr ⟨hwf, hpos, Nat.mod_eq_of_lt hlt, fun _ => Nat.div_eq_of_lt hlt⟩

/-- Settles O4: a word with no digit above its low `2+n` is those digits. -/
theorem faultModeAcceptsExactlyTheLegalWords : Obligations.FaultModeAcceptsExactlyTheLegalWords := by
  intro w i
  constructor
  · intro h
    obtain ⟨hwf, hw, hlow, hextra⟩ := decode_eq_instr.mp h
    have hlt : w.toNat < 10 ^ (2 + i.params) := Nat.lt_of_div_eq_zero (Nat.pow_pos (by decide)) (hextra rfl)
    rw [Nat.mod_eq_of_lt hlt] at hlow
    obtain ⟨hpos, -⟩ := wordLayout i hwf
    exact ⟨hwf, by omega⟩
  · rintro ⟨hwf, rfl⟩
    exact decodeOfEncodeIsTheInstruction .fault i hwf

/-- The low digits of a word that is not negative are those of the natural number that the decoder reads. -/
theorem emod_eq_encode_iff {w : Int} {i : Instr} {k : Nat} (hw : 0 ≤ w) :
    w % (10 : Int) ^ k = encode i ↔ w.toNat % 10 ^ k = (encode i).toNat := by
  obtain ⟨n, rfl⟩ := Int.eq_ofNat_of_zero_le hw
  rw [encode_toNat, encode, Int.toNat_natCast]
  exact_mod_cast Iff.rfl

/-- Settles O5: `decode_eq_instr` without the check that IGNORE leaves out. -/
theorem ignoreModeReadsOnlyTheLowDigits : Obligations.IgnoreModeReadsOnlyTheLowDigits := by
  intro w i
  rw [decode_eq_instr]
  constructor
  · rintro ⟨hwf, hw, hlow, -⟩
    exact ⟨hwf, hw, (emod_eq_encode_iff hw).mpr hlow⟩
  · rintro ⟨hwf, hw, hlow⟩
    exact ⟨hwf, hw, (emod_eq_encode_iff hw).mp hlow, nofun⟩

/-! ### The checks in order (R115, R117, R120) -/

/-- The loop stops at the first parameter whose digit is not legal, with what that parameter's check answers. -/
theorem readModes_first_reject {op n c p : Nat} {r : Decoded} (k : List Mode → Decoded) (hp : p < c)
    (hlegal : ∀ q, q < p → LegalDigit op n q) (hr : ∀ k, withMode n p (decide (destParam op = some p)) k = r) :
    readModes op n 0 c k = r := by
  obtain ⟨d, rfl⟩ := Nat.exists_eq_add_of_lt hp
  obtain ⟨ms, -, -, hpass⟩ := readModes_pass p (p := 0) (fun q _ hq => hlegal q (by omega)) (d + 1) k
  rw [Nat.add_assoc, hpass, Nat.zero_add]
  exact hr _

/-- Settles O6: the loop goes past the legal digits before `p` and stops there, or goes past all and ends in the check of the extra digits. -/
theorem decoderChecksInOrder : Obligations.DecoderChecksInOrder := by
  intro x w
  refine ⟨decode_of_neg, decode_of_no_opcode, fun c p hw hop hp hlegal => ⟨fun hbad => ?_, fun hdest himm => ?_⟩,
    fun c hw hop hlegal => ?_⟩
  · rw [decode_eq_loop x hw hop]
    exact readModes_first_reject _ hp hlegal fun _ => withMode_badMode hbad
  · rw [decode_eq_loop x hw hop]
    refine readModes_first_reject _ hp hlegal fun _ => ?_
    rw [decide_eq_true hdest]
    exact withMode_immediate himm
  · obtain ⟨ms, rfl, hspells, hpass⟩ := readModes_pass c (p := 0) (fun q _ hq => hlegal q (by omega)) 0
      fun ms => finish x w.toNat c (ofModes (w.toNat % 100) ms)
    obtain ⟨hopcode, hmodes⟩ := opcode_modes_ofModes hop
    have hdecode : decode x w = finish x w.toNat ms.length (ofModes (w.toNat % 100) ms) := by
      rw [decode_eq_loop x hw hop]
      simpa [readModes] using hpass
    obtain ⟨hreject, haccept⟩ := finish_cases x w.toNat ms.length (ofModes (w.toNat % 100) ms)
    rw [hdecode]
    refine ⟨hreject, fun h => ⟨_, haccept h, hopcode, ?_⟩⟩
    rw [hmodes, List.range_eq_range']
    exact hspells

/-- Settles O2: each word is run through the decoder. -/
theorem writtenOutWordsDecode : Obligations.WrittenOutWordsDecode := by
  unfold Obligations.WrittenOutWordsDecode
  decide

/-! ### Faults before an instruction runs (R144) -/

theorem fetch_of_negative_pc {s : State} (h : s.me.pc < 0) : s.fetch = .error (fetchFault s.me.pc) :=
  if_pos h

theorem fetch_of_reject {s : State} {sub : DecodeSub} {p : Option Nat} (hpc : 0 ≤ s.me.pc)
    (h : decode s.cfg.extraDigits (s.memRead s.me.pc.toNat) = .reject sub p) : s.fetch = .error (decodeFault sub p) := by
  rw [State.fetch, if_neg hpc.not_gt, h]

theorem runActive_of_fetch_fault {s : State} {f : FaultInfo} (h : s.fetch = .error f) : s.runActive = .next (s.raise f) := by
  rw [State.runActive, h]

/-- Settles O26: the step is the granted machine's, whose fetch fails. -/
theorem stepFaultsAtFetchAndDecode : Obligations.StepFaultsAtFetchAndDecode := by
  rintro s u hn he rfl
  rw [step_running hn he]
  exact ⟨fun hpc => runActive_of_fetch_fault (fetch_of_negative_pc hpc),
    fun _ _ hpc hreject => runActive_of_fetch_fault (fetch_of_reject hpc hreject)⟩

end Sys2Proof.Proofs

/-!
PROOFS. The engine and the arbiter (spec R140 to R157, R246): which machines may step, what the granted step runs, the first failing check as the
instruction's fault, and what an engine's next state depends on (R154), which is one lemma per operation and then per instruction on two states
that give the active engine the same view.
-/

namespace Sys2Proof.Proofs
open Sys2Proof.Machine Sys2Proof.Laws

/-! ### Enabled steps and the arbiter's choice (R142, R246) -/

theorem accepts_iff (s : State) (j : Nat) : s.accepts j = true ↔ s.consumerStopped j = true ∨ s.full j = false := by
  simp [State.accepts]

/-- The engine states in which a machine has an enabled step (R142). -/
theorem canStep_iff (s : State) (i : Nat) :
    s.canStep i = true ↔
      (s.inst i).estate = .running ∨
      ((s.inst i).estate = .waitingOnInput ∧ ((s.chan i).buf ≠ [] ∨ (s.chan i).closed = true)) ∨
      ((s.inst i).estate = .waitingOnOutput ∧
        (s.consumerStopped (s.cfg.outChannel i) = true ∨ s.full (s.cfg.outChannel i) = false)) := by
  unfold State.canStep
  cases (s.inst i).estate <;> simp [accepts_iff]

/-- A schedule that names an enabled machine first makes the next step that machine's (log 5). -/
theorem step_of_scheduled {s : State} {i : Nat} (hn : s.nstate = .running) (hi : i ∈ s.enabled) (rest : List Nat) :
    step { s with schedule := i :: rest } = (({ s with schedule := i :: rest } : State).grant i).runActive := by
  have hpick : pick s.enabled i = i := pick_of_mem hi
  have hstep := step_running (s := { s with schedule := i :: rest }) hn (List.ne_nil_of_mem hi)
  exact hstep.trans (congrArg (fun k => (({ s with schedule := i :: rest } : State).grant k).runActive) hpick)

/-- Settles O27: `canStep` by the engine state; an enabled machine at the head of the schedule is the one picked. -/
theorem anyEnabledInstanceMayStep : Obligations.AnyEnabledInstanceMayStep := by
  intro s i hn
  refine ⟨?_, fun hi rest => step_of_scheduled hn hi rest, fun he => pick_mem he _⟩
  rw [mem_enabled, canStep_iff]

theorem fetch_of_decoded {s : State} {i : Instr} (hpc : 0 ≤ s.me.pc)
    (h : decode s.cfg.extraDigits (s.memRead s.me.pc.toNat) = .instr i) : s.fetch = .ok i := by
  rw [State.fetch, if_neg hpc.not_gt, h]

/-- Settles O25: the step is the picked machine's, whose fetch succeeds. -/
theorem stepRunsTheDecodedInstruction : Obligations.StepRunsTheDecodedInstruction := by
  rintro s u i hn he rfl hpc hdecode
  exact (step_running hn he).trans (runActive_of_fetched (fetch_of_decoded hpc hdecode))

/-- Settles O34: both are the step granted to `i`, and a granted step always has a next state. -/
theorem engineStepIsAStepTheArbiterMayChoose : Obligations.EngineStepIsAStepTheArbiterMayChoose := by
  intro s i
  refine ⟨fun hn hi => ?_, fun hnot => ?_⟩
  · obtain ⟨t, ht, -⟩ := runActive_cases (({ s with schedule := i :: s.schedule } : State).grant i)
    refine ⟨t, (step_of_scheduled hn hi s.schedule).trans ht, ?_⟩
    rw [State.engineStep, if_pos ⟨hn, hi⟩, ht]
  · rw [State.engineStep, if_neg]
    rintro ⟨hn, hi⟩
    exact hnot.elim (fun h => h hn) (fun h => h hi)

/-! ### The first failing check (R80, R145, R227) -/

section FirstFailure
variable {s : State} {a b d : Mode} {f : FaultInfo}

/-- ADD, MUL, LT and EQ take the fault of their operands. -/
theorem exec_of_src2dst_error (h : s.src2dst a b d = .error f) :
    ∀ i ∈ [Instr.add a b d, .mul a b d, .lt a b d, .eq a b d], exec i s = .next (s.raise f) := by
  have hcompute : ∀ g, s.compute a b d g = .next (s.raise f) := fun g => by rw [State.compute, h]
  simp only [List.forall_mem_cons]
  exact ⟨hcompute _, hcompute _, hcompute _, hcompute _, by simp⟩

/-- JT and JF take the fault of their operands. -/
theorem exec_of_src2_error (h : s.src2 a b = .error f) :
    ∀ i ∈ [Instr.jt a b, .jf a b], exec i s = .next (s.raise f) := by
  have hjt : execJt a b s = .next (s.raise f) := by rw [execJt, h]
  have hjf : execJf a b s = .next (s.raise f) := by rw [execJf, h]
  simp only [List.forall_mem_cons]
  exact ⟨hjt, hjf, by simp⟩

/-- ARB and OUT take the fault of their operand, OUT whatever its channel holds. -/
theorem exec_of_src1_error (h : s.src1 a = .error f) :
    ∀ i ∈ [Instr.arb a, .out a], exec i s = .next (s.raise f) := by
  have harb : execArb a s = .next (s.raise f) := by rw [execArb, h]
  have hout : execOut a s = .next (s.raise f) := by rw [execOut, h]
  simp only [List.forall_mem_cons]
  exact ⟨harb, hout, by simp⟩

/-- IN takes its destination's fault, whatever its channel holds. -/
theorem exec_inp_of_resolve_error (h : s.resolve 0 d true = .error f) : exec (.inp d) s = .next (s.raise f) := by
  show execIn d s = _
  rw [execIn, h]

end FirstFailure

/-- Settles O24: the operand reads answer the fault of the first parameter that does not resolve, and `exec` raises it. -/
theorem firstFailingParameterIsTheFault : Obligations.FirstFailingParameterIsTheFault := by
  intro s a b d f
  refine ⟨fun h0 => ?_, exec_inp_of_resolve_error, fun ea0 h0 h1 => ?_, fun ea0 ea1 h0 h1 h2 => ?_⟩
  · have hthree := exec_of_src2dst_error (s := s) (a := a) (b := b) (d := d) (f := f) (by rw [State.src2dst, h0])
    have htwo := exec_of_src2_error (s := s) (a := a) (b := b) (f := f) (by rw [State.src2, h0])
    have hone := exec_of_src1_error (s := s) (a := a) (f := f) (by rw [State.src1, h0])
    exact List.forall_mem_append.mpr ⟨hthree, List.forall_mem_append.mpr ⟨htwo, hone⟩⟩
  · have hthree := exec_of_src2dst_error (s := s) (a := a) (b := b) (d := d) (f := f) (by simp [State.src2dst, h0, h1])
    have htwo := exec_of_src2_error (s := s) (a := a) (b := b) (f := f) (by simp [State.src2, h0, h1])
    exact List.forall_mem_append.mpr ⟨hthree, htwo⟩
  · exact exec_of_src2dst_error (by simp [State.src2dst, h0, h1, h2])

/-! ### Pop and Push by what the engine sees (R85, R86) -/

/-- Pop answers the head of the channel's values, if there is one. -/
theorem pop_of_head {s : State} {j : Nat} {v : Int} (h : (s.chan j).buf.head? = some v) :
    ∃ rest, s.pop j = .value v (s.setChan j ((s.chan j).withBuf rest)) := by
  obtain ⟨rest, hbuf⟩ := List.head?_eq_some_iff.mp h
  exact ⟨rest, by rw [State.pop, hbuf]⟩

theorem pop_of_no_head {s : State} {j : Nat} (h : (s.chan j).buf.head? = none) :
    s.pop j = if (s.chan j).closed then .endOfStream else .empty := by
  rw [State.pop, List.head?_eq_none_iff.mp h]

/-- A Push that is accepted drops its value or appends it: it leaves every channel or changes one, and no machine. -/
theorem push_of_accepts {s : State} {j : Nat} (h : s.accepts j = true) (v : Int) :
    ∃ t, s.push j v = .accepted t ∧ (t = s ∨ ∃ c, t = s.setChan j c) := by
  rcases push_cases s j v with ⟨-, hp⟩ | ⟨hs, hf, -⟩ | ⟨-, -, hp⟩
  · exact ⟨_, hp, .inl rfl⟩
  · rw [accepts_iff, hs, hf] at h
    simp at h
  · exact ⟨_, hp, .inr ⟨_, rfl⟩⟩

theorem push_of_not_accepts {s : State} {j : Nat} (h : s.accepts j = false) (v : Int) : s.push j v = .full := by
  obtain ⟨hlive, hfull⟩ : s.consumerStopped j = false ∧ s.full j = true := by simpa [State.accepts] using h
  simp [State.push, hlive, hfull]

/-! ### Two states with the same view of the active engine (R90, R154) -/

theorem me_memWrite_advance {s : State} (ha : s.active < s.insts.length) (ea : Nat) (v : Int) (n : Nat) :
    ((s.memWrite ea v).advance n).me =
      (s.me.withMem (Memory.write s.me.mem ea v)).completeAt (s.wrap (s.me.pc + 1 + (n : Int))) := by
  rw [memWrite_advance ha, me_setMe ha]

/-- OUT's machine after an accepted Push. -/
theorem me_advance_of_push {s t : State} {j : Nat} (ha : s.active < s.insts.length) (ht : t = s ∨ ∃ c, t = s.setChan j c)
    (n : Nat) : (t.advance n).me = s.me.completeAt (s.wrap (s.me.pc + 1 + (n : Int))) := by
  rcases ht with rfl | ⟨c, rfl⟩
  · exact me_advance ha n
  · exact me_advance_setChan ha j c n

/-- Both outcomes are next states, with the same active machine. -/
def SameNext (o p : Host.Outcome State Fault Refusal) : Prop :=
  ∃ s' u', o = .next s' ∧ p = .next u' ∧ s'.me = u'.me

theorem SameNext.of_me {s' u' : State} (h : s'.me = u'.me) : SameNext (.next s') (.next u') := ⟨s', u', rfl, rfl, h⟩

/-- The two states agree on all that the active engine can see: the parameters, its own machine, the head and the closed bit of its input
channel, and whether its output channel accepts. -/
structure SameView (s u : State) : Prop where
  cfg : s.cfg = u.cfg
  active : s.active = u.active
  present : s.active < s.insts.length
  present' : u.active < u.insts.length
  me : s.me = u.me
  head : (s.chan s.active).buf.head? = (u.chan u.active).buf.head?
  closed : (s.chan s.active).closed = (u.chan u.active).closed
  accepts : s.accepts s.outIndex = u.accepts u.outIndex

namespace SameView
variable {s u : State}

theorem wrap (h : SameView s u) (x : Int) : s.wrap x = u.wrap x := by rw [State.wrap, State.wrap, h.cfg]

theorem memRead (h : SameView s u) (a : Nat) : s.memRead a = u.memRead a :=
  memRead_congr h.cfg (by rw [h.me]) a

theorem slot (h : SameView s u) (p : Nat) : s.slot p = u.slot p := by rw [State.slot, State.slot, h.me, h.wrap]

theorem effective (h : SameView s u) (m : Mode) (a : Nat) : s.effective m a = u.effective m a := by
  cases m with
  | position => exact h.memRead a
  | immediate => rfl
  | relative => simp only [State.effective, h.me, h.wrap, h.memRead]

theorem resolve (h : SameView s u) (p : Nat) (m : Mode) (isDest : Bool) : s.resolve p m isDest = u.resolve p m isDest := by
  simp only [State.resolve, h.slot, h.effective, h.cfg]

theorem src1 (h : SameView s u) (a : Mode) : s.src1 a = u.src1 a := by
  simp only [State.src1, h.resolve, h.memRead]

theorem src2 (h : SameView s u) (a b : Mode) : s.src2 a b = u.src2 a b := by
  simp only [State.src2, h.resolve, h.memRead]

theorem src2dst (h : SameView s u) (a b d : Mode) : s.src2dst a b d = u.src2dst a b d := by
  simp only [State.src2dst, h.resolve, h.memRead]

theorem fetch (h : SameView s u) : s.fetch = u.fetch := by
  simp only [State.fetch, h.me, h.cfg, h.memRead]

theorem faultRec (h : SameView s u) (f : FaultInfo) : s.faultRec f = u.faultRec f := by
  simp only [State.faultRec, State.instrWord, h.me, h.memRead]

theorem raise (h : SameView s u) (f : FaultInfo) : SameNext (.next (s.raise f)) (.next (u.raise f)) :=
  .of_me (by rw [me_raise h.present, me_raise h.present', h.me, h.faultRec])

theorem wait (h : SameView s u) (e : EState) : SameNext (.next (s.wait e)) (.next (u.wait e)) :=
  .of_me (by rw [me_wait h.present, me_wait h.present', h.me])

theorem goTo (h : SameView s u) (v : Int) : SameNext (.next (s.goTo v)) (.next (u.goTo v)) :=
  .of_me (by rw [me_goTo h.present, me_goTo h.present', h.me])

theorem advance (h : SameView s u) (n : Nat) : SameNext (.next (s.advance n)) (.next (u.advance n)) :=
  .of_me (by rw [me_advance h.present, me_advance h.present', h.me, h.wrap])

theorem compute (h : SameView s u) (a b d : Mode) {f g : Int → Int → Int} (hfg : ∀ x y, f x y = g x y) :
    SameNext (s.compute a b d f) (u.compute a b d g) := by
  unfold State.compute
  rw [h.src2dst]
  cases u.src2dst a b d with
  | error e => exact h.raise e
  | ok r =>
    obtain ⟨x, y, ea⟩ := r
    exact .of_me (by
      rw [me_memWrite_advance h.present, me_memWrite_advance h.present', h.me, h.wrap, hfg])

/-- IN sees the head of its channel, and where there is none its closed bit. -/
theorem execIn (h : SameView s u) (d : Mode) : SameNext (execIn d s) (execIn d u) := by
  unfold Machine.execIn
  rw [h.resolve]
  cases u.resolve 0 d true with
  | error f => exact h.raise f
  | ok ea =>
    cases hv : (u.chan u.active).buf.head? with
    | some v =>
      obtain ⟨_, hs⟩ := pop_of_head (h.head.trans hv)
      obtain ⟨_, hu⟩ := pop_of_head hv
      simp only [hs, hu]
      exact .of_me (by
        rw [me_memWrite_advance_setChan h.present, me_memWrite_advance_setChan h.present', h.me, h.wrap])
    | none =>
      rw [pop_of_no_head (h.head.trans hv), pop_of_no_head hv, h.closed]
      cases (u.chan u.active).closed with
      | true => exact h.raise _
      | false => exact h.wait _

/-- OUT sees whether its channel accepts; an accepted value changes nothing of its own machine that `advance` would not. -/
theorem execOut (h : SameView s u) (a : Mode) : SameNext (execOut a s) (execOut a u) := by
  unfold Machine.execOut
  rw [h.src1]
  cases u.src1 a with
  | error f => exact h.raise f
  | ok v =>
    cases hacc : u.accepts u.outIndex with
    | true =>
      obtain ⟨s', hs, hs'⟩ := push_of_accepts (h.accepts.trans hacc) v
      obtain ⟨u', hu, hu'⟩ := push_of_accepts hacc v
      simp only [hs, hu]
      exact .of_me (by
        rw [tap_me, tap_me, me_advance_of_push h.present hs', me_advance_of_push h.present' hu', h.me, h.wrap])
    | false =>
      simp only [push_of_not_accepts (h.accepts.trans hacc), push_of_not_accepts hacc]
      exact h.wait _

theorem execJt (h : SameView s u) (a b : Mode) : SameNext (execJt a b s) (execJt a b u) := by
  unfold Machine.execJt
  rw [h.src2]
  cases u.src2 a b with
  | error f => exact h.raise f
  | ok r =>
    obtain ⟨c, target⟩ := r
    dsimp only
    cases nonZero c with
    | true => exact h.goTo target
    | false => exact h.advance 2

theorem execJf (h : SameView s u) (a b : Mode) : SameNext (execJf a b s) (execJf a b u) := by
  unfold Machine.execJf
  rw [h.src2]
  cases u.src2 a b with
  | error f => exact h.raise f
  | ok r =>
    obtain ⟨c, target⟩ := r
    dsimp only
    cases nonZero c with
    | true => exact h.advance 2
    | false => exact h.goTo target

theorem execArb (h : SameView s u) (a : Mode) : SameNext (execArb a s) (execArb a u) := by
  unfold Machine.execArb
  rw [h.src1]
  cases u.src1 a with
  | error f => exact h.raise f
  | ok x =>
    exact .of_me (by
      rw [setRb_advance h.present, setRb_advance h.present', me_setMe h.present, me_setMe h.present', h.me, h.wrap,
        h.wrap])

theorem exec (h : SameView s u) (i : Instr) : SameNext (exec i s) (exec i u) := by
  cases i with
  | add a b d => exact h.compute a b d fun _ _ => h.wrap _
  | mul a b d => exact h.compute a b d fun _ _ => h.wrap _
  | lt a b d => exact h.compute a b d fun _ _ => rfl
  | eq a b d => exact h.compute a b d fun _ _ => rfl
  | inp d => exact h.execIn d
  | out a => exact h.execOut a
  | jt a b => exact h.execJt a b
  | jf a b => exact h.execJf a b
  | arb a => exact h.execArb a
  | halt => exact .of_me (by rw [me_halt h.present, me_halt h.present', h.me])

theorem runActive (h : SameView s u) : SameNext s.runActive u.runActive := by
  unfold State.runActive
  rw [h.fetch]
  cases u.fetch with
  | error f => exact h.raise f
  | ok i => exact h.exec i

end SameView

/-- Settles O44: the hypotheses are `SameView`, and every operation of a step sees no more than that. -/
theorem engineStepDependsOnItsViewOnly : Obligations.EngineStepDependsOnItsViewOnly :=
  fun _ _ hcfg hactive hs hu hme hhead hclosed haccepts =>
    SameView.runActive ⟨hcfg, hactive, hs, hu, hme, hhead, hclosed, haccepts⟩

end Sys2Proof.Proofs

/-!
PROOFS. ADD and MUL (spec R170 to R172). Both are `State.compute`, so what a completed computation does is said once, for any function of the two
operand values: the state it answers depends on the values and the destination alone (R172), its result is the stored word, and its frame is that
of one store and one advance (R33, R46, R146).
-/

namespace Sys2Proof.Proofs
open Sys2Proof.Machine Sys2Proof.Laws

/-! ### The frame of an update of the active machine (R46) -/

theorem elsewhere_setMe (s : State) (m : Inst) : s.Elsewhere (s.setMe m) where
  cfg := rfl
  deadlock := rfl
  active := rfl
  schedule := rfl
  tick := rfl
  count := setMe_count s m
  others _ hj := inst_setMe_ne s m hj

theorem onlyActive_setMe {s : State} {m : Inst} (ha : s.active < s.insts.length) (hfault : m.fault = s.me.fault) :
    s.OnlyActive (s.setMe m) where
  elsewhere := elsewhere_setMe s m
  nstate := rfl
  lastOut := rfl
  nfault := rfl
  chans := rfl
  fault := by rw [me_setMe ha, hfault]

/-! ### A store and an advance (R33, R63, R146) -/

theorem onlyActive_memWrite_advance {s : State} (ha : s.active < s.insts.length) (ea : Nat) (v : Int) (n : Nat) :
    s.OnlyActive ((s.memWrite ea v).advance n) := by
  rw [memWrite_advance ha]
  exact onlyActive_setMe ha rfl

/-- An advance stores nothing. -/
theorem memRead_advance {s : State} (ha : s.active < s.insts.length) (n a : Nat) :
    (s.advance n).memRead a = s.memRead a :=
  memRead_congr (advance_cfg s n) (by rw [me_advance ha, completeAt_mem]) a

theorem memRead_memWrite_advance {s : State} (ha : s.active < s.insts.length) (ea : Nat) (v : Int) (n a : Nat) :
    ((s.memWrite ea v).advance n).memRead a = (s.memWrite ea v).memRead a :=
  memRead_advance (s := s.memWrite ea v) (by rwa [State.memWrite, setMe_active, setMe_count]) n a

/-- Past the opcode and three slots, `pc` has advanced by four. -/
theorem wrap_pc_three_slots (s : State) :
    s.wrap (s.me.pc + 1 + ((3 : Nat) : Int)) = wrap s.cfg.wordBits (s.me.pc + 4) := by
  rw [State.wrap, add_assoc]
  rfl

/-! ### A completed computation (R170 to R172, R200, R201) -/

section Compute
variable {s : State} {a b d : Mode}

/-- The modes enter through the operand values and the destination only. -/
theorem compute_of_src2dst {x y : Int} {ea : Nat} (h : s.src2dst a b d = .ok (x, y, ea)) (f : Int → Int → Int) :
    s.compute a b d f = .next ((s.memWrite ea (f x y)).advance 3) := by
  rw [State.compute, h]

/-- The result, the `pc` and the frame of ADD, MUL, LT and EQ, each with its own `f`. -/
theorem compute_completes (f : Int → Int → Int) {ea0 ea1 ea2 : Nat} (h : s.Ready) (h0 : s.resolve 0 a false = .ok ea0)
    (h1 : s.resolve 1 b false = .ok ea1) (h2 : s.resolve 2 d true = .ok ea2) :
    ∃ t, s.compute a b d f = .next t ∧ s.OnlyActive t ∧ s.SameMemoryBut t ea2 ∧
      t.memRead ea2 = f (s.memRead ea0) (s.memRead ea1) ∧
      t.me.pc = wrap s.cfg.wordBits (s.me.pc + 4) ∧ t.me.rb = s.me.rb ∧ t.me.estate = .running := by
  refine ⟨_, compute_of_src2dst (src2dst_ok h0 h1 h2) f, onlyActive_memWrite_advance h.active _ _ _, fun c hc => ?_, ?_, ?_⟩
  · rw [memRead_memWrite_advance h.active, memRead_memWrite_ne h.active hc]
  · rw [memRead_memWrite_advance h.active, memRead_memWrite_self h (resolve_dest_lt h2)]
  · rw [me_memWrite_advance h.active, wrap_pc_three_slots]
    exact ⟨rfl, rfl, rfl⟩

end Compute

/-- Settles O10: ADD is the computation of the wrapped sum. -/
theorem addStoresTheWrappedSum : Obligations.AddStoresTheWrappedSum :=
  fun s _ _ _ _ _ _ => compute_completes fun x y => s.wrap (x + y)

/-- Settles O11: MUL is the computation of the wrapped product. -/
theorem mulStoresTheWrappedProduct : Obligations.MulStoresTheWrappedProduct :=
  fun s _ _ _ _ _ _ => compute_completes fun x y => s.wrap (x * y)

/-- Settles O22: from the same operands a computation answers the same state, whichever function it computes. -/
theorem modesOnlySourceTheOperands : Obligations.ModesOnlySourceTheOperands := by
  intro s a b d a' b' d' x y ea h h'
  have hsame : ∀ f, s.compute a b d f = s.compute a' b' d' f := fun f =>
    (compute_of_src2dst h f).trans (compute_of_src2dst h' f).symm
  exact ⟨hsame _, hsame _⟩

end Sys2Proof.Proofs

/-!
PROOFS. IN and OUT (spec R180, R181). What each answers is said once for each answer of Pop and of Push (R85, R86): where it completes, its frame is that of
an update of the active machine (R33, R46) over a state whose channels alone have changed; where it cannot, the wait (R150) or the fault (R223) is all.
-/

namespace Sys2Proof.Proofs
open Sys2Proof.Machine Sys2Proof.Laws

/-- Past the opcode and one slot, `pc` has advanced by two. -/
theorem wrap_pc_one_slot (s : State) :
    s.wrap (s.me.pc + 1 + ((1 : Nat) : Int)) = wrap s.cfg.wordBits (s.me.pc + 2) := by
  rw [State.wrap, add_assoc]
  rfl

/-! ### IN (R180) -/

section In
variable {s : State} {d : Mode} {ea : Nat}

theorem exec_inp_of_value {v : Int} {rest : List Int} (hdest : s.resolve 0 d true = .ok ea)
    (hbuf : (s.chan s.active).buf = v :: rest) :
    exec (.inp d) s =
      .next (((s.setChan s.active ((s.chan s.active).withBuf rest)).memWrite ea v).advance 1) := by
  have hpop : s.pop s.active = .value v (s.setChan s.active ((s.chan s.active).withBuf rest)) := by
    rw [State.pop, hbuf]
  show execIn d s = _
  simp only [execIn, hdest, hpop]

theorem exec_inp_of_open_empty (hdest : s.resolve 0 d true = .ok ea) (hbuf : (s.chan s.active).buf = [])
    (hopen : (s.chan s.active).closed = false) : exec (.inp d) s = .next (s.wait .waitingOnInput) := by
  have hpop : s.pop s.active = .empty := by simp [State.pop, hbuf, hopen]
  show execIn d s = _
  simp only [execIn, hdest, hpop]

theorem exec_inp_of_closed_empty (hdest : s.resolve 0 d true = .ok ea) (hbuf : (s.chan s.active).buf = [])
    (hclosed : (s.chan s.active).closed = true) : exec (.inp d) s = .next (s.raise channelClosedFault) := by
  have hpop : s.pop s.active = .endOfStream := by simp [State.pop, hbuf, hclosed]
  show execIn d s = _
  simp only [execIn, hdest, hpop]

end In

/-- Settles O14: Pop changes the channel alone, and over the popped state IN is one store and one advance. -/
theorem inStoresTheOldestValue : Obligations.InStoresTheOldestValue := by
  intro s d ea v rest h hchan hdest hbuf
  have hexec := exec_inp_of_value hdest hbuf
  obtain ⟨hrest, hclosed, hothers, -⟩ := setChan_withBuf_frame hchan rest
  have hpopped : (s.setChan s.active ((s.chan s.active).withBuf rest)).Ready := ⟨h.active, h.form⟩
  have hme := me_memWrite_advance_setChan h.active s.active ((s.chan s.active).withBuf rest) ea v 1
  refine ⟨_, hexec, effect_elsewhere (effect_of_exec hexec), fun a ha => ?_, ?_, hrest, hclosed, hothers,
    rfl, rfl, rfl, ?_⟩
  · rw [memRead_memWrite_advance hpopped.active, memRead_memWrite_ne hpopped.active ha]
    rfl
  · rw [memRead_memWrite_advance hpopped.active, memRead_memWrite_self hpopped (resolve_dest_lt hdest)]
  · rw [hme, wrap_pc_one_slot]
    exact ⟨rfl, rfl, rfl, rfl⟩

/-- Settles O15: Pop of an empty channel answers by its closed bit. -/
theorem inWaitsOrFaultsOnAnEmptyChannel : Obligations.InWaitsOrFaultsOnAnEmptyChannel :=
  fun _ _ _ hdest hbuf => ⟨exec_inp_of_open_empty hdest hbuf, exec_inp_of_closed_empty hdest hbuf⟩

/-! ### OUT (R181) -/

/-- A Push that is accepted changes the channels alone: none where the consumer has stopped, else its own by the appended value. -/
theorem push_accepted {s : State} {j : Nat} (hj : j < s.chans.length)
    (h : s.consumerStopped j = true ∨ s.full j = false) (v : Int) :
    ∃ cs : List Channel, let u : State := { s with chans := cs }
      s.push j v = .accepted u ∧
      (s.consumerStopped j = true → u.chans = s.chans) ∧
      (s.consumerStopped j = false →
        (u.chan j).buf = (s.chan j).buf ++ [v] ∧ (u.chan j).closed = (s.chan j).closed) ∧
      ∀ k, k ≠ j → u.chan k = s.chan k := by
  rcases push_cases s j v with ⟨hstopped, hpush⟩ | ⟨hlive, hfull, -⟩ | ⟨hlive, -, hpush⟩
  · exact ⟨s.chans, hpush, fun _ => rfl, by simp [hstopped], fun _ _ => rfl⟩
  · simp [hlive, hfull] at h
  · obtain ⟨hbuf, hclosed, hothers, -⟩ := setChan_withBuf_frame hj ((s.chan j).buf ++ [v])
    exact ⟨_, hpush, by simp [hlive], fun _ => ⟨hbuf, hclosed⟩, hothers⟩

section Out
variable {s : State} {a : Mode} {ea : Nat}

theorem exec_out_of_accepted {u : State} (hop : s.resolve 0 a false = .ok ea)
    (hpush : s.push s.outIndex (s.memRead ea) = .accepted u) :
    exec (.out a) s = .next ((u.advance 1).tap (s.memRead ea)) := by
  show execOut a s = _
  simp only [execOut, src1_ok hop, hpush]

theorem exec_out_of_full (hop : s.resolve 0 a false = .ok ea) (hpush : s.push s.outIndex (s.memRead ea) = .full) :
    exec (.out a) s = .next (s.wait .waitingOnOutput) := by
  show execOut a s = _
  simp only [execOut, src1_ok hop, hpush]

end Out

/-- Settles O16: the Push changes the channels alone, the advance the active machine, and the tap `lastOut`. -/
theorem outPushesItsOperand : Obligations.OutPushesItsOperand := by
  intro s a ea h hchan hop htakes
  obtain ⟨cs, hpush, hdropped, happended, hothers⟩ := push_accepted hchan htakes (s.memRead ea)
  have hexec := exec_out_of_accepted hop hpush
  have hme := (tap_me _ (s.memRead ea)).trans (me_advance (s := { s with chans := cs }) h.active 1)
  have hlastOut := tap_lastOut (({ s with chans := cs } : State).advance 1) (s.memRead ea)
  refine ⟨_, hexec, effect_elsewhere (effect_of_exec hexec), ?_, ?_, ?_, ?_, fun hterminal => ?_, fun hinner => ?_,
    tap_nstate _ _, tap_nfault _ _, ?_⟩
  · have hmem := congrArg Inst.mem hme
    exact memRead_congr (tap_cfg _ _) hmem
  · rw [tap_chans]
    exact hdropped
  · rw [tap_chan]
    exact happended
  · simp only [tap_chan]
    exact hothers
  · exact hlastOut.trans (if_pos hterminal)
  · exact hlastOut.trans (if_neg hinner)
  · rw [hme, ← wrap_pc_one_slot]
    exact ⟨rfl, rfl, rfl, rfl⟩

/-- Settles O17: Push refuses, and `full` and `consumerStopped` are the model's two checks. -/
theorem outWaitsOnAFullChannel : Obligations.OutWaitsOnAFullChannel := by
  intro s a ea hop
  refine ⟨fun hlive hfull => exec_out_of_full hop ?_, full_iff s, consumerStopped_iff s⟩
  exact push_of_not_accepts (by simp [State.accepts, hlive, hfull]) _

end Sys2Proof.Proofs

/-!
PROOFS. JT and JF (spec R190 to R192). Taken or not, a jump is one `goTo`: to its target, or past its two slots. So the frame of `goTo` is said once
(R33, R46), and each instruction by the one `pc` it goes to.
-/

namespace Sys2Proof.Proofs
open Sys2Proof.Machine Sys2Proof.Laws

/-! ### A change of `pc` alone (R33, R46) -/

theorem onlyActive_goTo {s : State} (ha : s.active < s.insts.length) (v : Int) : s.OnlyActive (s.goTo v) :=
  onlyActive_setMe ha (completeAt_fault s.me v)

theorem sameMemory_goTo {s : State} (ha : s.active < s.insts.length) (v : Int) : s.SameMemory (s.goTo v) :=
  memRead_congr (goTo_cfg s v) (by rw [me_goTo ha, completeAt_mem])

/-- Past the opcode and two slots, `pc` has advanced by three. -/
theorem advance_two_slots (s : State) : s.advance 2 = s.goTo (wrap s.cfg.wordBits (s.me.pc + 3)) := by
  rw [State.advance, State.wrap, add_assoc]
  rfl

/-! ### Where a jump goes (R190, R191) -/

section Jump
variable {s : State} {a b : Mode} {c target : Int}

theorem exec_jt_of_src2 (h : s.src2 a b = .ok (c, target)) :
    exec (.jt a b) s = .next (s.goTo (if c = 0 then wrap s.cfg.wordBits (s.me.pc + 3) else target)) := by
  show execJt a b s = _
  rw [execJt, h, advance_two_slots]
  by_cases hc : c = 0 <;> simp [nonZero, hc]

theorem exec_jf_of_src2 (h : s.src2 a b = .ok (c, target)) :
    exec (.jf a b) s = .next (s.goTo (if c = 0 then target else wrap s.cfg.wordBits (s.me.pc + 3))) := by
  show execJf a b s = _
  rw [execJf, h, advance_two_slots]
  by_cases hc : c = 0 <;> simp [nonZero, hc]

end Jump

/-- Settles O18: JT goes to its target where its condition is not 0, else past its slots, and `goTo` changes nothing more. -/
theorem jtJumpsOnANonZeroWord : Obligations.JtJumpsOnANonZeroWord := by
  intro s a b ea0 ea1 h h0 h1
  refine ⟨_, exec_jt_of_src2 (src2_ok h0 h1), onlyActive_goTo h.active _, sameMemory_goTo h.active _, ?_⟩
  rw [me_goTo h.active]
  exact ⟨fun htaken => if_neg htaken, fun hpassed => if_pos hpassed, rfl, rfl⟩

/-- Settles O19: JF goes to its target where its condition is 0, else past its slots, and `goTo` changes nothing more. -/
theorem jfJumpsOnZero : Obligations.JfJumpsOnZero := by
  intro s a b ea0 ea1 h h0 h1
  refine ⟨_, exec_jf_of_src2 (src2_ok h0 h1), onlyActive_goTo h.active _, sameMemory_goTo h.active _, ?_⟩
  rw [me_goTo h.active]
  exact ⟨fun htaken => if_pos htaken, fun hpassed => if_neg hpassed, rfl, rfl⟩

end Sys2Proof.Proofs

/-!
PROOFS. LT and EQ (spec R200, R201). Both are `State.compute` of a truth word, so where they complete and what they leave unchanged is
`compute_completes`; what is left is the stored word where the comparison holds and where it does not.
-/

namespace Sys2Proof.Proofs
open Sys2Proof.Machine Sys2Proof.Laws

/-! ### The words of the comparisons -/

@[simp] theorem truthWord_true : truthWord true = 1 := rfl

@[simp] theorem truthWord_false : truthWord false = 0 := rfl

section Words
variable {x y : Int}

theorem ltWord_of_lt (h : x < y) : ltWord x y = 1 := by
  rw [ltWord, decide_eq_true h, truthWord_true]

theorem ltWord_of_le (h : y ≤ x) : ltWord x y = 0 := by
  rw [ltWord, decide_eq_false h.not_gt, truthWord_false]

theorem eqWord_of_eq (h : x = y) : eqWord x y = 1 := by
  rw [eqWord, decide_eq_true h, truthWord_true]

theorem eqWord_of_ne (h : x ≠ y) : eqWord x y = 0 := by
  rw [eqWord, decide_eq_false h, truthWord_false]

end Words

/-- Settles O12: LT is the computation of `ltWord`, which is signed since a Word is the `Int` it stands for. -/
theorem ltStoresTheSignedComparison : Obligations.LtStoresTheSignedComparison := by
  intro s a b d ea0 ea1 ea2 h h0 h1 h2
  obtain ⟨t, hexec, honly, hmem, hword, hcontrol⟩ := compute_completes ltWord h h0 h1 h2
  exact ⟨t, hexec, honly, hmem, fun hlt => hword.trans (ltWord_of_lt hlt), fun hle => hword.trans (ltWord_of_le hle),
    hcontrol⟩

/-- Settles O13: EQ is the computation of `eqWord`. -/
theorem eqStoresTheEquality : Obligations.EqStoresTheEquality := by
  intro s a b d ea0 ea1 ea2 h h0 h1 h2
  obtain ⟨t, hexec, honly, hmem, hword, hcontrol⟩ := compute_completes eqWord h h0 h1 h2
  exact ⟨t, hexec, honly, hmem, fun heq => hword.trans (eqWord_of_eq heq), fun hne => hword.trans (eqWord_of_ne hne),
    hcontrol⟩

end Sys2Proof.Proofs

/-!
PROOFS. ARB (spec R210). It is one update of the active machine, whose `rb` and `pc` alone are new, so its frame is that of
such an update (R33, R35, R46).
-/

namespace Sys2Proof.Proofs
open Sys2Proof.Machine Sys2Proof.Laws

/-- The operand is read, and its address resolved, at the state before the update, so at the old `rb`. -/
theorem exec_arb_of_resolve {s : State} {a : Mode} {ea : Nat} (hactive : s.active < s.insts.length)
    (hop : s.resolve 0 a false = .ok ea) :
    exec (.arb a) s =
      .next (s.setMe ((s.me.withRb (s.wrap (s.me.rb + s.memRead ea))).completeAt (wrap s.cfg.wordBits (s.me.pc + 2)))) := by
  show execArb a s = _
  rw [execArb, src1_ok hop, ← wrap_pc_one_slot, ← setRb_advance hactive]

/-- Settles O20: the updated machine has the old one's memory and fault record. -/
theorem arbAdjustsTheRelativeBase : Obligations.ArbAdjustsTheRelativeBase := by
  intro s a ea h hop
  refine ⟨_, exec_arb_of_resolve h.active hop, onlyActive_setMe h.active rfl, ?_, ?_⟩
  · exact memRead_congr (setMe_cfg s _) (by rw [me_setMe h.active, completeAt_mem, withRb_mem])
  · rw [me_setMe h.active]
    exact ⟨rfl, rfl, rfl⟩

end Sys2Proof.Proofs

/-!
PROOFS. HALT (spec R215). It answers `State.halt` in every state: the machine's new engine state, the Close of its output channel (R157) and the
move of the network's registers (R248, R249), each by the rule that says it.
-/

namespace Sys2Proof.Proofs
open Sys2Proof.Machine Sys2Proof.Laws

theorem exec_halt (s : State) : exec .halt s = .next s.halt := rfl

/-- Settles O21: of the moves of the network, `halt_network` leaves the one whose condition holds, and the others contradict it. -/
theorem haltStopsTheEngine : Obligations.HaltStopsTheEngine := by
  intro s hactive hchan
  have hhalted : s.halt.me.estate = .halted := by rw [me_halt hactive, withEState_estate]
  have hout : s.halt.chan s.outIndex = (s.chan s.outIndex).shut := by rw [halt_chan, chan_close_self hchan]
  refine ⟨s.halt, exec_halt s, effect_elsewhere .halted, me_halt hactive, halt_lastOut s, fun j hj => ?_,
    by rw [hout, shut_buf], by rw [hout, shut_closed], ?_⟩
  · rw [halt_chan, chan_close_ne s hj]
  · cases halt_network hactive with
    | faulted r hfaulted => simp [hhalted] at hfaulted
    | done hterminal _ houtput hnstate hnfault =>
      refine ⟨fun hinner => absurd hterminal hinner, fun _ _ => ⟨hnstate, hnfault⟩, fun _ hsilent honce => ?_⟩
      simp [hsilent, honce] at houtput
    | noOutput hterminal _ hsilent honce hnstate hnfault =>
      refine ⟨fun hinner => absurd hterminal hinner, fun _ houtput => ?_, fun _ _ _ => ⟨hnstate, hnfault⟩⟩
      rw [halt_lastOut] at hsilent
      simp [hsilent, honce] at houtput
    | goesOn _ hnotEnd hnstate hnfault =>
      exact ⟨fun _ => ⟨hnstate, hnfault⟩, fun hterminal => absurd hhalted (hnotEnd hterminal),
        fun hterminal => absurd hhalted (hnotEnd hterminal)⟩

end Sys2Proof.Proofs

/-!
PROOFS. Taking a fault (spec R224, R38, R250), by the rules of `raise` and of a Close.
-/

namespace Sys2Proof.Proofs
open Sys2Proof.Machine Sys2Proof.Laws

/-- A negative `pc` fetches no word (R144). -/
theorem instrWord_of_neg {s : State} (h : s.me.pc < 0) : s.instrWord = none := if_pos h

theorem instrWord_of_nonneg {s : State} (h : 0 ≤ s.me.pc) : s.instrWord = some (s.memRead s.me.pc.toNat) :=
  if_neg h.not_gt

/-- Settles O23: the record is `faultRec`; the frame is that of a faulting instruction, and Close keeps the channel's values. -/
theorem raiseRecordsAndStops : Obligations.RaiseRecordsAndStops := by
  intro s f hactive hchan
  have hout : (s.raise f).chan s.outIndex = (s.chan s.outIndex).shut := by rw [raise_chan, chan_close_self hchan]
  refine ⟨s.faultRec f, rfl, rfl, rfl, rfl, rfl, fun hneg => ?_, fun hpos => ?_,
    effect_elsewhere (.raised (.arb .position) f (by simp)), me_raise hactive f, fun j hj => ?_,
    by rw [hout, shut_buf], by rw [hout, shut_closed], rfl, rfl, rfl⟩
  · simp [State.faultRec, instrWord_of_neg hneg, opcodeOf]
  · simp only [State.faultRec, instrWord_of_nonneg hpos, opcodeOf]
    exact ⟨trivial, fun hword => if_pos hword, fun hword => if_neg hword.not_gt⟩
  · rw [raise_chan, chan_close_ne s hj]

end Sys2Proof.Proofs

/-!
PROOFS. A network before its first instruction (spec R241 to R245, R261, R262, R293): what `load` answers, what is built, what the start step leaves
in the machines and channels, and the wiring, which no step changes (R242).
-/

namespace Sys2Proof.Proofs
open Sys2Proof.Machine Sys2Proof.Laws

/-! ### Loading and building (R262, R293) -/

/-- `firstUnfit` is the library's search for the first token outside the Word range, its index counted from `k`. -/
theorem firstUnfit_eq_findIdx (W k : Nat) (ws : List Int) :
    firstUnfit W k ws = (ws.findIdx? fun w => !decide (fits W w)).map (· + k) := by
  induction ws generalizing k with
  | nil => rfl
  | cons w ws ih =>
    rw [firstUnfit, List.findIdx?_cons]
    by_cases hw : fits W w
    · simp [hw, ih, Function.comp_def, Nat.add_assoc, Nat.add_comm 1]
    · simp [hw]

theorem firstUnfit_eq_some_iff {W k : Nat} {ws : List Int} :
    firstUnfit W 0 ws = some k ↔
      (∃ w, ws[k]? = some w ∧ ¬fits W w) ∧ ∀ j w, j < k → ws[j]? = some w → fits W w := by
  rw [firstUnfit_eq_findIdx]
  simp only [Nat.add_zero, Option.map_id', List.findIdx?_eq_some_iff_getElem, List.getElem?_eq_some_iff,
    Bool.not_eq_eq_eq_not, Bool.not_true, decide_eq_false_iff_not, not_not]
  constructor
  · rintro ⟨hk, hunfit, hbefore⟩
    exact ⟨⟨_, ⟨hk, rfl⟩, hunfit⟩, fun j w hj ⟨_, hw⟩ => hw ▸ hbefore j hj⟩
  · rintro ⟨⟨w, ⟨hk, rfl⟩, hunfit⟩, hbefore⟩
    exact ⟨hk, hunfit, fun j hj => hbefore j _ hj ⟨hj.trans hk, rfl⟩⟩

theorem firstUnfit_eq_none {W : Nat} {ws : List Int} (h : ∀ w ∈ ws, fits W w) : firstUnfit W 0 ws = none := by
  rw [firstUnfit_eq_findIdx, List.findIdx?_eq_none_iff.mpr fun w hw => by simp [h w hw], Option.map_none]

/-- Settles O53: `load` answers by `firstUnfit`, and where that finds no token by the length. -/
theorem loadChecksItsTokens : Obligations.LoadChecksItsTokens := by
  intro c tokens
  refine ⟨fun k => ?_, fun hfits => ⟨fun hlong => ?_, fun hshort => ?_⟩⟩
  · rw [← firstUnfit_eq_some_iff, loadProgram]
    cases firstUnfit c.wordBits 0 tokens with
    | some n => simp
    | none =>
      dsimp only
      split <;> simp
  · simp [loadProgram, firstUnfit_eq_none hfits, hlong]
  · simp [loadProgram, firstUnfit_eq_none hfits, hshort]

/-- Settles O30: the registers are written out in `build`, and every channel is fresh. -/
theorem buildResetsTheNetwork : Obligations.BuildResetsTheNetwork := fun c =>
  ⟨rfl, rfl, rfl, List.length_replicate, fun j _ => by rw [build_chan]; exact ⟨rfl, rfl⟩⟩

/-- Settles O48, one invariant after the other. -/
theorem builtNetworksMeetTheInvariants : Obligations.BuiltNetworksMeetTheInvariants := fun c h =>
  ⟨build_shape h, build_wordsOk h, build_control c⟩

/-! ### The start step (R241, R243, R245, R261) -/

theorem step_configured {s : State} (h : s.nstate = .configured) : step s = .next s.start := by
  rw [step, h]

/-- A machine right after the start step, as the statements write it out (R290). -/
theorem start_machine {s : State} {i : Nat} (hi : i < s.cfg.instances) :
    (s.start.inst i).pc = 0 ∧ (s.start.inst i).rb = 0 ∧ (s.start.inst i).estate = .running ∧
      (s.start.inst i).fault = none ∧ ∀ a, a < s.cfg.memWords → s.start.readAt i a = s.cfg.program.getD a 0 := by
  have hfresh := start_inst hi
  rw [hfresh]
  exact ⟨rfl, rfl, rfl, rfl, fun a ha => readAt_fresh hfresh ha⟩

section NetworkEntry
variable {c : Config} {phases : List Int} {feedback : Bool} {drive : Int}

theorem instances_of_network (he : c.entry = .network phases feedback drive) : c.instances = phases.length := by
  rw [Config.instances, he]

theorem feedback_of_network (he : c.entry = .network phases feedback drive) : c.feedback = feedback := by
  rw [Config.feedback, he]

theorem channels_of_network (he : c.entry = .network phases feedback drive) :
    c.channels = if feedback then phases.length else phases.length + 1 := by
  rw [Config.channels, feedback_of_network he, instances_of_network he]

end NetworkEntry

section StartNetwork
variable {s : State} {phases : List Int} {feedback : Bool} {drive : Int}

/-- `ch[0]` holds its phase and the driving value, and is closed in single pass only. -/
theorem start_chan_zero (he : s.cfg.entry = .network phases feedback drive) (hne : phases ≠ []) :
    s.start.chan 0 = { buf := [phases.headD 0, drive], closed := !feedback } := by
  obtain ⟨p, ps, rfl⟩ := List.exists_cons_of_ne_nil hne
  rw [State.chan, start_chans, seeded, he]
  rfl

/-- Every other input channel holds its phase and is open. -/
theorem start_chan_inner (he : s.cfg.entry = .network phases feedback drive) {j : Nat} (h0 : 0 < j)
    (hj : j < phases.length) : s.start.chan j = { buf := [phases.getD j 0], closed := false } := by
  cases phases with
  | nil => simp at hj
  | cons p ps =>
    obtain ⟨k, rfl⟩ := Nat.exists_eq_succ_of_ne_zero h0.ne'
    have hk : k < ps.length := Nat.lt_of_succ_lt_succ hj
    simp [State.chan, seeded, he, seedPhases, hk, List.getElem?_append_left]

/-- The sink of single pass stands after the input channels, empty and open. -/
theorem start_chan_sink (he : s.cfg.entry = .network phases false drive) :
    s.start.chan phases.length = Channel.fresh := by
  simp [State.chan, seeded, he, ← seedPhases_length false drive phases]

end StartNetwork

/-- Settles O28: the machines are fresh, and the channels are the seeded ones. -/
theorem startInstantiatesAndSeeds : Obligations.StartInstantiatesAndSeeds := by
  intro s phases feedback drive hn he hne
  have hcount := instances_of_network he
  have hchans : s.start.chans.length = s.cfg.channels := by rw [start_chans, seeded_length]
  refine ⟨_, step_configured hn, rfl, rfl, rfl, rfl, ?_, fun i hi => start_machine (hcount ▸ hi), ?_, ?_,
    fun j h0 hj => ?_, ?_, ?_⟩
  · rw [start_insts, List.length_replicate, hcount]
  · rw [start_chan_zero he hne]
  · rw [start_chan_zero he hne]
  · rw [start_chan_inner he h0 hj]
    exact ⟨rfl, rfl⟩
  · rintro rfl
    exact ⟨hchans.trans (channels_of_network he), start_chan_sink he⟩
  · rintro rfl
    exact hchans.trans (channels_of_network he)

/-- Settles O29: the seeds of a `runOnce` are its inputs, and machine 0 is the terminal one. -/
theorem runOnceStartsWithItsInputs : Obligations.RunOnceStartsWithItsInputs := by
  intro s inputs hn he
  have hcount : s.cfg.instances = 1 := by rw [Config.instances, he]
  have hfeedback : s.cfg.feedback = false := by rw [Config.feedback, he]
  have hchans : s.start.chans = [{ buf := inputs, closed := true }, Channel.fresh] := by rw [start_chans, seeded, he]
  obtain ⟨hpc, hrb, hestate, hfault, hmem⟩ := start_machine (s := s) (i := 0) (by omega)
  refine ⟨_, step_configured hn, rfl, rfl, by rw [start_insts, List.length_replicate, hcount], hpc, hrb, hestate,
    hfault, hmem, by rw [State.chan, hchans]; rfl, by rw [State.chan, hchans]; rfl, by rw [State.chan, hchans]; rfl,
    ?_, ?_⟩
  · simp [Config.outChannel, hcount, hfeedback]
  · rw [start_cfg, Config.terminal, hcount]

/-! ### The wiring (R241) -/

theorem outChannel_of_lt {c : Config} {i : Nat} (h : i + 1 < c.instances) : c.outChannel i = i + 1 := if_pos h

theorem outChannel_terminal (c : Config) : c.outChannel c.terminal = if c.feedback then 0 else c.instances :=
  if_neg (by unfold Config.terminal; omega)

/-- The sink, channel N, has no machine as its consumer and is never full (R84). -/
theorem sink_accepts (s : State) : s.full s.cfg.instances = false ∧ s.consumerStopped s.cfg.instances = false := by
  refine ⟨Bool.eq_false_iff.mpr fun hfull => ?_, Bool.eq_false_iff.mpr fun hstopped => ?_⟩
  · obtain ⟨_, -, hlt, -⟩ := (full_iff s _).mp hfull
    exact lt_irrefl _ hlt
  · obtain ⟨hlt, -⟩ := (consumerStopped_iff s _).mp hstopped
    exact lt_irrefl _ hlt

/-- IN takes from its machine's own channel, and from no other. -/
theorem exec_inp_takes {s : State} {d : Mode} {ea : Nat} {v : Int} {rest : List Int} (hchan : s.active < s.chans.length)
    (hdest : s.resolve 0 d true = .ok ea) (hbuf : (s.chan s.active).buf = v :: rest) :
    ∃ t, exec (.inp d) s = .next t ∧ (t.chan s.active).buf = rest ∧ ∀ k, k ≠ s.active → t.chan k = s.chan k := by
  obtain ⟨hrest, -, hothers, -⟩ := setChan_withBuf_frame hchan rest
  exact ⟨_, exec_inp_of_value hdest hbuf, hrest, hothers⟩

/-- Settles O54: the wiring is computed from the parameters, and the seeds are those of the start step. -/
theorem networkIsWiredAsTheTableSays : Obligations.NetworkIsWiredAsTheTableSays := by
  rintro s phases feedback drive N hs he rfl
  have hcount := instances_of_network he
  have hterminal : s.cfg.terminal = phases.length - 1 := by rw [Config.terminal, hcount]
  have hchans := hs.chanCount.trans (channels_of_network he)
  have hlast := outChannel_terminal s.cfg
  rw [hterminal, feedback_of_network he, hcount] at hlast
  have hne : phases ≠ [] := List.ne_nil_of_length_pos (hcount ▸ instances_pos hs.cfgOk)
  refine ⟨hs.instCount.trans hcount, hterminal, ?_, ?_, fun i => rfl, fun j hj => ⟨?_, ?_, ?_⟩,
    fun i hi => outChannel_of_lt (hcount ▸ hi), ?_, ?_, fun hn => ?_⟩
  · rintro rfl
    exact hchans
  · rintro rfl
    exact hchans
  · rw [consumerStopped_iff, hcount]
    exact and_iff_right hj
  · simp only [full_iff, hcount, hj, true_and]
  · intro d ea v rest hdest hbuf
    have hchan : j < s.chans.length := by
      rw [hs.chanCount]
      exact (hcount ▸ hj).trans_le (instances_le_channels _)
    exact exec_inp_takes (s := { s with active := j }) hchan hdest hbuf
  · rintro rfl
    exact hlast
  · rintro rfl
    obtain ⟨hroom, hlive⟩ := sink_accepts s
    rw [hcount] at hroom hlive
    exact ⟨hlast, hroom, hlive, by rw [State.sinkRead, hcount]⟩
  · refine ⟨_, step_configured hn, ?_, ?_, fun j h0 hj => ?_, ?_⟩
    · rw [start_chan_zero he hne]
    · rw [start_chan_zero he hne]
    · rw [start_chan_inner he h0 hj]
      exact ⟨rfl, rfl⟩
    · rintro rfl
      exact start_chan_sink he

theorem step_cfg {s t : State} (h : step s = .next t) : t.cfg = s.cfg := by
  rcases step_start_or_deadlock_or_effect h with rfl | rfl | ⟨i, k, -, he⟩
  · rfl
  · rfl
  · exact (effect_elsewhere he).cfg

/-- Settles O41: the numbers of machines and channels are those of the configuration, before the step and after it. -/
theorem configurationNeverChanges : Obligations.ConfigurationNeverChanges := by
  intro s t hs hstep
  have hcfg := step_cfg hstep
  have ht := step_shape hs hstep
  exact ⟨hcfg, by rw [ht.instCount, hs.instCount, hcfg], by rw [ht.chanCount, hs.chanCount, hcfg]⟩

end Sys2Proof.Proofs

/-!
PROOFS. How a network runs and ends (spec R244, R248 to R253, R261, R264): the transitions of `nstate`, the detector and its situation, and the result.
What an instruction of a Running network does to its registers is the `NetworkMove` of a `LiveEffect`.
-/

namespace Sys2Proof.Proofs
open Sys2Proof.Machine Sys2Proof.Laws

/-! ### The transitions of `nstate` (R244, R248 to R252) -/

/-- Settles O33: by `nstate`; a Running network's step is the detector's or a machine's, which always has a next state. -/
theorem stepStopsExactlyWhenTheNetworkEnded : Obligations.StepStopsExactlyWhenTheNetworkEnded := by
  intro s
  refine ⟨?_, ?_⟩
  · rintro (hn | hn | hn) <;> rw [step, hn]
  · rintro (hn | hn)
    · exact ⟨_, step_configured hn⟩
    · by_cases he : s.enabled = []
      · exact ⟨_, step_deadlock hn he⟩
      · obtain ⟨t, ht, -⟩ := runActive_cases (s.grant (pick s.enabled s.choice))
        exact ⟨t, (step_running hn he).trans ht⟩

/-- The step that is granted to an enabled machine of a Running network. -/
theorem liveEffect_of_granted {s t : State} {k : Nat} (hs : s.Shape) (h : s.Control) (hn : s.nstate = .running)
    (hk : k ∈ s.enabled) (hrun : (s.grant k).runActive = .next t) : ∃ i, LiveEffect (s.grant k) i t := by
  obtain ⟨hlt, hcan⟩ := mem_enabled.mp hk
  obtain ⟨i, he⟩ := effect_of_runActive hrun
  exact ⟨i, ⟨hs.cfgOk, hs.instCount, hs.chanCount⟩, grant_control h k, hn, hlt, not_final_of_canStep hcan, he⟩

/-- A machine that halts pushes nothing (R215). -/
theorem lastOut_of_halted {s t : State} {i : Instr} (ha : s.active < s.insts.length) (he : Effect s i t)
    (hend : t.me.estate = .halted) : t.lastOut = s.lastOut := by
  rcases effect_ends ha he with ⟨-, f, rfl⟩ | ⟨-, -, rfl⟩ | ⟨hlive, -⟩
  · rfl
  · exact halt_lastOut s
  · simp [hend, EState.final] at hlive

/-- Settles O37: the start step, the detector's, and of an instruction each move of the network's registers. -/
theorem networkTransitionsAreTheTable : Obligations.NetworkTransitionsAreTheTable := by
  intro s t hs h hstep
  rcases step_cases hstep with ⟨hn, rfl⟩ | ⟨hn, he, rfl⟩ | ⟨hn, k, hk, hrun⟩
  · exact .inl ⟨hn, rfl⟩
  · exact .inr (.inl ⟨hn, he, rfl⟩)
  · obtain ⟨i, hlive⟩ := liveEffect_of_granted hs h hn hk hrun
    have hlastOut := lastOut_of_halted hlive.active hlive.effect
    obtain rfl : t.active = k := (effect_elsewhere hlive.effect).active
    refine .inr (.inr ⟨hn, hk, ?_⟩)
    cases hlive.network with
    | faulted r estate record nstate nfault => exact .inl ⟨estate, nstate, r, record, nfault⟩
    | done terminal estate output nstate =>
      rw [hlastOut estate, Option.isSome_iff_ne_none] at output
      exact .inr (.inl ⟨terminal, estate, output, nstate⟩)
    | noOutput terminal estate silent notOnce nstate nfault =>
      rw [hlastOut estate] at silent
      exact .inr (.inr (.inl ⟨terminal, estate, silent, notOnce, nstate, nfault⟩))
    | goesOn live notEnd nstate =>
      exact .inr (.inr (.inr ⟨live, fun ⟨hterminal, hend⟩ => notEnd hterminal hend, nstate.trans hn⟩))

/-- Where no machine has an enabled step, each is Halted, or waits on a channel that does not let it go on (R251). -/
theorem blocked_of_no_enabled {s : State} (hs : s.Shape) (h : s.Control) (hn : s.nstate = .running) (he : s.enabled = [])
    {i : Nat} (hi : i < s.cfg.instances) :
    (s.inst i).estate = .halted ∨
    ((s.inst i).estate = .waitingOnInput ∧ (s.chan i).buf = [] ∧ (s.chan i).closed = false) ∨
    ((s.inst i).estate = .waitingOnOutput ∧ s.full (s.cfg.outChannel i) = true ∧
      s.consumerStopped (s.cfg.outChannel i) = false) := by
  have hlt : i < s.insts.length := hs.instCount ▸ hi
  have hblocked : ¬s.canStep i = true := fun hcan => by simpa [he] using mem_enabled.mpr ⟨hlt, hcan⟩
  obtain ⟨hclean, -⟩ := h.running hn
  have hnotFaulted := hclean _ (inst_mem hlt)
  rw [canStep_iff] at hblocked
  cases hestate : (s.inst i).estate with
  | running => simp [hestate] at hblocked
  | waitingOnInput => exact .inr (.inl ⟨rfl, by simpa [hestate] using hblocked⟩)
  | waitingOnOutput => exact .inr (.inr ⟨rfl, by simpa [hestate, and_comm] using hblocked⟩)
  | halted => exact .inl rfl
  | faulted => exact absurd hestate hnotFaulted

/-- No instruction leads to Deadlocked. -/
theorem not_deadlocked_of_enabled {s t : State} (hs : s.Shape) (h : s.Control) (hn : s.nstate = .running)
    (he : s.enabled ≠ []) (hstep : step s = .next t) : t.nstate ≠ .deadlocked := by
  rw [step_running hn he] at hstep
  obtain ⟨i, hlive⟩ := liveEffect_of_granted hs h hn (pick_mem he _) hstep
  rcases hlive.nstate with hnext | hnext | hnext <;> simp [hnext]

/-- Settles O32: the detector's step, and `Control` for the terminal machine. -/
theorem deadlockIsDetected : Obligations.DeadlockIsDetected := by
  intro s hs h hn
  obtain ⟨-, hterminal, -⟩ := h.running hn
  exact ⟨fun he => ⟨⟨_, step_deadlock hn he, rfl, rfl, rfl, rfl, rfl, rfl, rfl⟩,
    fun i hi => blocked_of_no_enabled hs h hn he hi, hterminal⟩, fun he _ => not_deadlocked_of_enabled hs h hn he⟩

/-! ### A `runOnce` (R261) -/

section RunOnce
variable {s : State}

/-- Machine 0 is the terminal one of a `runOnce`. -/
theorem runOnce_terminal (honce : s.cfg.isRunOnce = true) : s.cfg.terminal = 0 := by
  obtain ⟨-, hcount⟩ := runOnce_single_pass honce
  rw [Config.terminal, hcount]

/-- Machine 0 of a running `runOnce` always has an enabled step: its input channel is closed and the sink accepts every value. -/
theorem runOnce_enabled (hs : s.Shape) (h : s.Control) (honce : s.cfg.isRunOnce = true) (hn : s.nstate = .running) :
    s.enabled ≠ [] := by
  intro he
  obtain ⟨hfeedback, hcount⟩ := runOnce_single_pass honce
  obtain ⟨-, hterminal, -⟩ := h.running hn
  rw [runOnce_terminal honce] at hterminal
  have hclosed : (s.chan 0).closed = true := (h.closedAtStart hfeedback).mpr (by simp [hn])
  have hsink : s.cfg.outChannel 0 = s.cfg.instances := by simp [Config.outChannel, hcount, hfeedback]
  obtain ⟨hroom, -⟩ := sink_accepts s
  rcases blocked_of_no_enabled hs h hn he (i := 0) (by omega) with hend | ⟨-, -, hopen⟩ | ⟨-, hfull, -⟩
  · exact hterminal hend
  · simp [hclosed] at hopen
  · rw [hsink, hroom] at hfull
    cases hfull

end RunOnce

/-- Settles O50: the step is the start step or, since machine 0 is enabled, an instruction, and neither leads to Deadlocked. -/
theorem runOnceNeverDeadlocks : Obligations.RunOnceNeverDeadlocks := by
  intro s t hs h honce hstep
  rcases step_cases hstep with ⟨-, rfl⟩ | ⟨hn, he, -⟩ | ⟨hn, -⟩
  · simp
  · exact absurd he (runOnce_enabled hs h honce hn)
  · exact not_deadlocked_of_enabled hs h hn (runOnce_enabled hs h honce hn) hstep

/-! ### Results (R253, R261, R264) -/

/-- Settles O51: `result` reads the register that `Control` says is there in each final `nstate`. -/
theorem endedNetworksHaveExactlyOneResult : Obligations.EndedNetworksHaveExactlyOneResult := by
  intro s h honce
  cases hn : s.nstate with
  | configured => simp [State.result, hn]
  | running => simp [State.result, hn]
  | done =>
    obtain ⟨-, houtput, -⟩ := h.done hn
    obtain ⟨v, hv⟩ := Option.isSome_iff_exists.mp (houtput.resolve_right (by simp [honce]))
    simp [State.result, hn, hv]
  | faulted =>
    have hcause : ∃ f, s.nfault = some f := by
      obtain ⟨-, ⟨i, r, hf, -⟩ | ⟨hf, -⟩⟩ := h.faulted hn
      · exact ⟨_, hf⟩
      · exact ⟨_, hf⟩
    obtain ⟨⟨i, cause⟩, hf⟩ := hcause
    simp [State.result, hn, hf]
  | deadlocked =>
    obtain ⟨-, hrecord, -⟩ := h.deadlocked hn
    simp [State.result, hn, hrecord]

/-- A `runOnce` is Faulted only by the fault of machine 0. -/
theorem runOnce_faulted {s : State} (hs : s.Shape) (h : s.Control) (honce : s.cfg.isRunOnce = true)
    (hn : s.nstate = .faulted) :
    (s.inst 0).estate = .faulted ∧ ∃ r, (s.inst 0).fault = some r ∧ s.nfault = some (0, .recorded r) := by
  obtain ⟨-, hcount⟩ := runOnce_single_pass honce
  obtain ⟨-, ⟨i, r, hnfault, hi, hrecord⟩ | ⟨-, -, -, hnotOnce⟩⟩ := h.faulted hn
  · obtain rfl : i = 0 := by omega
    exact ⟨(h.faultRecord _ (inst_mem (hs.instCount ▸ hi))).mp (by simp [hrecord]), r, hrecord, hnfault⟩
  · simp [honce] at hnotOnce

/-- Settles O52: by `nstate`, from which `Control` gives the engine state of machine 0. -/
theorem runOnceReturnsItsOutputs : Obligations.RunOnceReturnsItsOutputs := by
  intro s hs h honce hnotDead
  obtain ⟨-, hcount⟩ := runOnce_single_pass honce
  have hmem : s.inst 0 ∈ s.insts := inst_mem (by rw [hs.instCount, hcount]; exact Nat.one_pos)
  cases hn : s.nstate with
  | configured =>
    obtain ⟨hrunning, -⟩ := h.configured hn
    simp [State.runOnceResult, hn, hrunning _ hmem]
  | running =>
    obtain ⟨hclean, hterminal, -⟩ := h.running hn
    rw [runOnce_terminal honce] at hterminal
    simp [State.runOnceResult, hn, hclean _ hmem, hterminal]
  | done =>
    obtain ⟨hhalted, -⟩ := h.done hn
    rw [runOnce_terminal honce] at hhalted
    simp [State.runOnceResult, hn, hhalted, hcount]
  | faulted =>
    obtain ⟨hfaulted, r, hrecord, hnfault⟩ := runOnce_faulted hs h honce hn
    simp [State.runOnceResult, hn, hfaulted, hrecord, hnfault]
  | deadlocked => exact absurd hn hnotDead

end Sys2Proof.Proofs

/-!
PROOFS. The completed steps of two machines commute (spec R254, from R46, R90, R154). A completed step is its machine's new registers and memory with
at most one channel operation (`Io`). It stays the same step as long as its own machine is as it was and that operation is open to it (`Performs`), and
a completed step of another machine changes neither; what the two do to the machines, the channels and the tap commutes.
-/

namespace Sys2Proof.Proofs
open Sys2Proof.Machine Sys2Proof.Laws

/-! ### A completed step in normal form -/

/-- The channel operation of a completed step. -/
inductive Io where
  /-- The instruction is no IN and no OUT. -/
  | keep
  /-- IN took the value `v` (R85). -/
  | take (v : Int)
  /-- OUT's value `v` was dropped (R86). -/
  | drop (v : Int)
  /-- OUT's value `v` was appended (R86). -/
  | put (v : Int)

namespace Io

/-- The operation is open to the active machine. -/
def Ready (s : State) : Io → Prop
  | keep => True
  | take v => (s.chan s.active).buf.head? = some v
  | drop _ => s.consumerStopped s.outIndex = true
  | put _ => s.consumerStopped s.outIndex = false ∧ s.full s.outIndex = false

/-- The channels after the operation of machine `i`. -/
def chans (c : Config) (i : Nat) (cs : List Channel) : Io → List Channel
  | keep => cs
  | take _ => cs.modify i fun ch => ch.withBuf ch.buf.tail
  | drop _ => cs
  | put v => cs.modify (c.outChannel i) fun ch => ch.withBuf (ch.buf ++ [v])

/-- The tap after the operation of machine `i` (R247). -/
def lastOut (c : Config) (i : Nat) (last : Option Int) : Io → Option Int
  | keep => last
  | take _ => last
  | drop v => if i = c.terminal then some v else last
  | put v => if i = c.terminal then some v else last

/-- The state after a completed step of the active machine, which becomes `m`. -/
def complete (io : Io) (m : Inst) (s : State) : State :=
  { s with
    insts := s.insts.set s.active m
    chans := io.chans s.cfg s.active s.chans
    lastOut := io.lastOut s.cfg s.active s.lastOut }

theorem me_complete (io : Io) (m : Inst) {s : State} (ha : s.active < s.insts.length) : (io.complete m s).me = m :=
  me_setMe ha m

theorem tap_eq (s : State) (v : Int) :
    s.tap v = { s with lastOut := if s.active = s.cfg.terminal then some v else s.lastOut } := by
  unfold State.tap
  split <;> rfl

/-- Changing the values of one channel, whether it is there or not. -/
theorem setChan_withBuf_eq_modify (s : State) (k : Nat) (f : List Int → List Int) :
    s.setChan k ((s.chan k).withBuf (f (s.chan k).buf)) =
      { s with chans := s.chans.modify k fun ch => ch.withBuf (f ch.buf) } := by
  rw [State.setChan, State.chan, List.modify_eq_set_getElem?, List.getD_eq_getElem?_getD]
  cases hk : s.chans[k]? with
  | some ch => rfl
  | none => rw [List.set_eq_of_length_le (List.getElem?_eq_none_iff.mp hk)]; rfl

theorem complete_take (s : State) (m : Inst) (v : Int) :
    (s.setChan s.active ((s.chan s.active).withBuf (s.chan s.active).buf.tail)).setMe m = (take v).complete m s := by
  rw [setChan_withBuf_eq_modify s s.active List.tail]
  rfl

theorem complete_drop (s : State) (m : Inst) (v : Int) : (s.setMe m).tap v = (drop v).complete m s :=
  tap_eq _ v

theorem complete_put (s : State) (m : Inst) (v : Int) :
    ((s.setChan s.outIndex ((s.chan s.outIndex).withBuf ((s.chan s.outIndex).buf ++ [v]))).setMe m).tap v =
      (put v).complete m s := by
  rw [setChan_withBuf_eq_modify s s.outIndex (· ++ [v]), tap_eq]
  rfl

end Io

/-! ### A completed step depends on its own machine and on its channel operation -/

/-- The two states agree on the parameters, the active machine and which consumers have stopped. -/
structure SameEngine (s u : State) : Prop where
  cfg : s.cfg = u.cfg
  active : s.active = u.active
  present : s.active < s.insts.length
  present' : u.active < u.insts.length
  me : s.me = u.me
  stopped : ∀ k, s.consumerStopped k = u.consumerStopped k

namespace SameEngine
variable {s u : State}

/-- With the same channels too, the two states give the active machine the same view. -/
theorem view (h : SameEngine s u) : SameView s { u with chans := s.chans } where
  cfg := h.cfg
  active := h.active
  present := h.present
  present' := h.present'
  me := h.me
  head := by rw [h.active]; rfl
  closed := by rw [h.active]; rfl
  accepts := by
    have hfull : ∀ k, s.full k = ({ u with chans := s.chans } : State).full k := fun k => by
      rw [State.full, State.full, h.cfg]
      rfl
    rw [State.accepts, h.stopped, hfull, State.outIndex, h.cfg, h.active]
    rfl

theorem wrap (h : SameEngine s u) (x : Int) : u.wrap x = s.wrap x := (h.view.wrap x).symm

theorem fetch (h : SameEngine s u) : u.fetch = s.fetch := h.view.fetch.symm

theorem resolve (h : SameEngine s u) (p : Nat) (m : Mode) (isDest : Bool) : u.resolve p m isDest = s.resolve p m isDest :=
  (h.view.resolve p m isDest).symm

theorem src1 (h : SameEngine s u) (a : Mode) : u.src1 a = s.src1 a := (h.view.src1 a).symm

theorem src2 (h : SameEngine s u) (a b : Mode) : u.src2 a b = s.src2 a b := (h.view.src2 a b).symm

theorem src2dst (h : SameEngine s u) (a b d : Mode) : u.src2dst a b d = s.src2dst a b d := (h.view.src2dst a b d).symm

end SameEngine

/-- In `s`, and wherever the active machine is the same and the operation is open to it, the step completes as `io` and `m` say. -/
def Performs (s : State) (io : Io) (m : Inst) : Prop :=
  ∀ u, SameEngine s u → io.Ready u → u.runActive = .next (io.complete m u)

/-! ### What completes, from the operands (R170 to R210) -/

section Exec
variable {s : State}

/-- ADD, MUL, LT and EQ store the word that `Effect.stored` names. -/
theorem exec_of_stored {i : Instr} {a b d : Mode} {x y v : Int} {ea : Nat}
    (form : (i = .add a b d ∧ v = s.wrap (x + y)) ∨ (i = .mul a b d ∧ v = s.wrap (x * y)) ∨
      (i = .lt a b d ∧ v = ltWord x y) ∨ (i = .eq a b d ∧ v = eqWord x y))
    (ops : s.src2dst a b d = .ok (x, y, ea)) : exec i s = .next ((s.memWrite ea v).advance 3) := by
  rcases form with ⟨rfl, rfl⟩ | ⟨rfl, rfl⟩ | ⟨rfl, rfl⟩ | ⟨rfl, rfl⟩ <;> exact compute_of_src2dst ops _

theorem exec_out_of_src1 {u : State} {a : Mode} {v : Int} (operand : s.src1 a = .ok v)
    (hpush : s.push s.outIndex v = .accepted u) : exec (.out a) s = .next ((u.advance 1).tap v) := by
  show execOut a s = _
  simp only [execOut, operand, hpush]

theorem exec_arb_of_src1 {a : Mode} {x : Int} (operand : s.src1 a = .ok x) :
    exec (.arb a) s = .next ((s.setRb (s.wrap (s.me.rb + x))).advance 1) := by
  show execArb a s = _
  rw [execArb, operand]

/-- A jump that is taken goes to its target. -/
theorem exec_of_jumped {i : Instr} {a b : Mode} {x y : Int} (form : (i = .jt a b ∧ x ≠ 0) ∨ (i = .jf a b ∧ x = 0))
    (ops : s.src2 a b = .ok (x, y)) : exec i s = .next (s.goTo y) := by
  rcases form with ⟨rfl, hx⟩ | ⟨rfl, hx⟩
  · rw [exec_jt_of_src2 ops, if_neg hx]
  · rw [exec_jf_of_src2 ops, if_pos hx]

/-- A jump that is not taken goes past its slots. -/
theorem exec_of_passed {i : Instr} {a b : Mode} {x y : Int} (form : (i = .jt a b ∧ x = 0) ∨ (i = .jf a b ∧ x ≠ 0))
    (ops : s.src2 a b = .ok (x, y)) : exec i s = .next (s.advance 2) := by
  rw [advance_two_slots]
  rcases form with ⟨rfl, hx⟩ | ⟨rfl, hx⟩
  · rw [exec_jt_of_src2 ops, if_pos hx]
  · rw [exec_jf_of_src2 ops, if_neg hx]

end Exec

section Performs
variable {s t : State} {i : Instr}

/-- The completed step of an instruction, by its effect. -/
theorem performs_of_effect (ha : s.active < s.insts.length) (hfetch : s.fetch = .ok i) (he : Effect s i t)
    (hend : t.me.estate = .running) : ∃ io m, Io.Ready s io ∧ Performs s io m := by
  have hruns : ∀ {u}, SameEngine s u → u.runActive = exec i u := fun h => runActive_of_fetched (h.fetch.trans hfetch)
  cases he with
  | raised _ f => simp [me_raise ha] at hend
  | inputWaits => simp [me_wait ha] at hend
  | outputWaits => simp [me_wait ha] at hend
  | halted => simp [me_halt ha] at hend
  | stored _ a b d x y v ea form ops =>
    refine ⟨.keep, (s.me.withMem (Memory.write s.me.mem ea v)).completeAt (s.wrap (s.me.pc + 1 + (3 : Nat))), trivial,
      fun u h _ => ?_⟩
    simp only [← h.wrap] at form
    rw [hruns h, exec_of_stored form ((h.src2dst a b d).trans ops), memWrite_advance h.present', h.me, ← h.wrap]
    rfl
  | input d ea v rest dest value =>
    refine ⟨.take v, (s.me.withMem (Memory.write s.me.mem ea v)).completeAt (s.wrap (s.me.pc + 1 + (1 : Nat))),
      by rw [Io.Ready, value]; rfl, fun u h hready => ?_⟩
    obtain ⟨rest', hbuf⟩ := List.head?_eq_some_iff.mp hready
    have hpresent : (u.setChan u.active ((u.chan u.active).withBuf rest')).active <
        (u.setChan u.active ((u.chan u.active).withBuf rest')).insts.length := h.present'
    rw [hruns h, exec_inp_of_value ((h.resolve 0 d true).trans dest) hbuf, memWrite_advance hpresent, ← Io.complete_take,
      hbuf, h.me, ← h.wrap]
    rfl
  | dropped a v operand stopped =>
    refine ⟨.drop v, s.me.completeAt (s.wrap (s.me.pc + 1 + (1 : Nat))), stopped, fun u h hready => ?_⟩
    have hpush : u.push u.outIndex v = .accepted u := if_pos hready
    rw [hruns h, exec_out_of_src1 ((h.src1 a).trans operand) hpush, advance_eq, Io.complete_drop, h.me, h.wrap]
  | pushed a v operand live room =>
    refine ⟨.put v, s.me.completeAt (s.wrap (s.me.pc + 1 + (1 : Nat))), ⟨live, room⟩, fun u h ⟨hlive, hroom⟩ => ?_⟩
    have hpush : u.push u.outIndex v =
        .accepted (u.setChan u.outIndex ((u.chan u.outIndex).withBuf ((u.chan u.outIndex).buf ++ [v]))) := by
      simp [State.push, hlive, hroom]
    rw [hruns h, exec_out_of_src1 ((h.src1 a).trans operand) hpush, advance_eq, ← Io.complete_put, h.me, ← h.wrap]
    rfl
  | jumped _ a b x y form ops =>
    refine ⟨.keep, s.me.completeAt y, trivial, fun u h _ => ?_⟩
    rw [hruns h, exec_of_jumped form ((h.src2 a b).trans ops), h.me]
    rfl
  | passed _ a b x y form ops =>
    refine ⟨.keep, s.me.completeAt (s.wrap (s.me.pc + 1 + (2 : Nat))), trivial, fun u h _ => ?_⟩
    rw [hruns h, exec_of_passed form ((h.src2 a b).trans ops), advance_eq, h.me, h.wrap]
    rfl
  | based a x operand =>
    refine ⟨.keep, (s.me.withRb (s.wrap (s.me.rb + x))).completeAt (s.wrap (s.me.pc + 1 + (1 : Nat))), trivial,
      fun u h _ => ?_⟩
    rw [hruns h, exec_arb_of_src1 ((h.src1 a).trans operand), setRb_advance h.present', h.wrap, h.wrap, ← h.me]
    rfl

theorem performs_of_runActive (ha : s.active < s.insts.length) (hrun : s.runActive = .next t)
    (hend : t.me.estate = .running) : ∃ io m, Io.Ready s io ∧ Performs s io m := by
  obtain ⟨t', hrun', hcase⟩ := runActive_cases s
  obtain rfl : t = t' := Host.Outcome.next.inj (hrun.symm.trans hrun')
  rcases hcase with ⟨f, -, rfl⟩ | ⟨i, hfetch, he⟩
  · simp [me_raise ha] at hend
  · exact performs_of_effect ha hfetch he hend

end Performs

/-! ### A completed step changes nothing that another machine's completed step depends on -/

/-- Machine `i` is granted the step and completes an instruction. -/
structure Completes (s : State) (i : Nat) (a : State) : Prop where
  shape : s.Shape
  enabled : i ∈ s.enabled
  run : (s.grant i).runActive = .next a
  running : (a.inst i).estate = .running

namespace Completes
variable {s a : State} {i j : Nat}

theorem lt (h : Completes s i a) : i < s.insts.length := (mem_enabled.mp h.enabled).1

theorem lt_instances (h : Completes s i a) : i < s.cfg.instances := h.shape.instCount ▸ h.lt

theorem elsewhere (h : Completes s i a) : (s.grant i).Elsewhere a := runActive_elsewhere h.run

theorem performs (h : Completes s i a) : ∃ io m, Io.Ready (s.grant i) io ∧ Performs (s.grant i) io m := by
  refine performs_of_runActive h.lt h.run ?_
  rw [State.me, h.elsewhere.active]
  exact h.running

theorem eq_complete (h : Completes s i a) {io : Io} {m : Inst} (hready : io.Ready (s.grant i))
    (hp : Performs (s.grant i) io m) : a = io.complete m (s.grant i) :=
  Host.Outcome.next.inj (h.run.symm.trans (hp _ ⟨rfl, rfl, h.lt, h.lt, rfl, fun _ => rfl⟩ hready))

theorem machine_running (h : Completes s i a) {io : Io} {m : Inst} (hready : io.Ready (s.grant i))
    (hp : Performs (s.grant i) io m) : m.estate = .running := by
  have hrunning := h.running
  rw [h.eq_complete hready hp] at hrunning
  exact (congrArg Inst.estate (Io.me_complete io m (s := s.grant i) h.lt)).symm.trans hrunning

/-- A machine that completes an instruction had not stopped and has not. -/
theorem stopped (h : Completes s i a) (k : Nat) : s.consumerStopped k = a.consumerStopped k := by
  have hbefore := not_final_of_canStep (mem_enabled.mp h.enabled).2
  have hcfg : a.cfg = s.cfg := h.elsewhere.cfg
  rw [State.consumerStopped, State.consumerStopped, hcfg]
  by_cases hk : k = i
  · subst hk
    rw [hbefore, h.running]
    rfl
  · have hother : a.inst k = s.inst k := h.elsewhere.others k hk
    rw [hother]

theorem sameEngine (h : Completes s i a) (hij : j ≠ i) (hj : j < s.insts.length) :
    SameEngine (s.grant j) (a.grant j) where
  cfg := h.elsewhere.cfg.symm
  active := rfl
  present := hj
  present' := hj.trans_eq h.elsewhere.count.symm
  me := (h.elsewhere.others j hij).symm
  stopped := h.stopped

/-- Another machine's output channel stays with room: no other machine appends to it (R83). -/
theorem room (h : Completes s i a) (hij : j ≠ i) (hj : j < s.cfg.instances)
    (hroom : s.full (s.cfg.outChannel j) = false) : a.full (s.cfg.outChannel j) = false := by
  have hcfg : a.cfg = s.cfg := h.elsewhere.cfg
  have hshorter : (a.chan (s.cfg.outChannel j)).buf.length ≤ (s.chan (s.cfg.outChannel j)).buf.length := by
    obtain ⟨instr, he⟩ := effect_of_runActive h.run
    rcases effect_buf he (s.cfg.outChannel j) with hsame | ⟨-, v, htaken⟩ | ⟨hout, -⟩
    · exact (congrArg List.length hsame).le
    · exact (Nat.le_succ _).trans_eq (congrArg List.length htaken).symm
    · exact absurd (outChannel_inj hj h.lt_instances hout) hij
  rw [Bool.eq_false_iff, Ne, full_iff] at hroom ⊢
  rintro ⟨k, hk, hlt, hlen⟩
  rw [hcfg] at hk hlt
  exact hroom ⟨k, hk, hlt, hlen.trans hshorter⟩

/-- Another machine's operation stays open: what it would take stays the oldest value of its channel, and its output channel gets no value. -/
theorem ready (h : Completes s i a) (hij : j ≠ i) (hj : j < s.cfg.instances) {io : Io} (hready : io.Ready (s.grant j)) :
    io.Ready (a.grant j) := by
  obtain ⟨instr, he⟩ := effect_of_runActive h.run
  have hcfg : a.cfg = s.cfg := h.elsewhere.cfg
  have hout : (a.grant j).outIndex = s.cfg.outChannel j := congrArg (·.outChannel j) hcfg
  cases io with
  | keep => trivial
  | take v =>
    rcases effect_buf he j with hsame | ⟨hji, -⟩ | ⟨-, w, happended⟩
    · exact (congrArg List.head? hsame).trans hready
    · exact absurd hji hij
    · obtain ⟨rest, hbuf⟩ := List.head?_eq_some_iff.mp hready
      show (a.chan j).buf.head? = some v
      rw [happended]
      exact congrArg (fun buf => (buf ++ [w]).head?) hbuf
  | drop v =>
    rw [Io.Ready, hout]
    exact (h.stopped _).symm.trans hready
  | put v =>
    obtain ⟨hlive, hroom⟩ := hready
    rw [Io.Ready, hout]
    exact ⟨(h.stopped _).symm.trans hlive, h.room hij hj hroom⟩

end Completes

/-! ### Two completed steps commute -/

/-- Only the terminal machine's values are tapped (R247). -/
theorem Io.lastOut_of_inner {c : Config} {i : Nat} (h : i ≠ c.terminal) (last : Option Int) (io : Io) :
    io.lastOut c i last = last := by
  cases io with
  | keep => rfl
  | take v => rfl
  | drop v => exact if_neg h
  | put v => exact if_neg h

/-- Of two machines at most one is the terminal one, whose values are tapped. -/
theorem lastOut_comm (c : Config) {i j : Nat} (hij : i ≠ j) (last : Option Int) (io jo : Io) :
    jo.lastOut c j (io.lastOut c i last) = io.lastOut c i (jo.lastOut c j last) := by
  by_cases hi : i = c.terminal
  · have hj : j ≠ c.terminal := fun hj => hij (hi.trans hj.symm)
    rw [Io.lastOut_of_inner hj, Io.lastOut_of_inner hj]
  · rw [Io.lastOut_of_inner hi, Io.lastOut_of_inner hi]

/-- Taking the oldest value and appending one commute on a channel that holds a value. -/
theorem take_put_comm {cs : List Channel} {i k : Nat} {v : Int} (h : (cs.getD i Channel.fresh).buf ≠ []) :
    (cs.modify i fun ch => ch.withBuf ch.buf.tail).modify k (fun ch => ch.withBuf (ch.buf ++ [v])) =
      (cs.modify k fun ch => ch.withBuf (ch.buf ++ [v])).modify i fun ch => ch.withBuf ch.buf.tail := by
  by_cases hk : i = k
  · subst hk
    rw [List.modify_modify_eq, List.modify_modify_eq, List.modify_eq_set_getElem?, List.modify_eq_set_getElem?]
    cases hi : cs[i]? with
    | none => rfl
    | some ch =>
      have hne : ch.buf ≠ [] := by simpa [hi] using h
      simp [Channel.withBuf, List.tail_append_of_ne_nil hne]
  · exact List.modify_modify_ne _ _ cs hk

theorem chans_comm {s : State} {i j : Nat} (hij : i ≠ j) (hi : i < s.cfg.instances) (hj : j < s.cfg.instances)
    {io jo : Io} (hio : io.Ready (s.grant i)) (hjo : jo.Ready (s.grant j)) :
    jo.chans s.cfg j (io.chans s.cfg i s.chans) = io.chans s.cfg i (jo.chans s.cfg j s.chans) := by
  have hnonempty : ∀ {k v}, (Io.take v).Ready (s.grant k) → (s.chan k).buf ≠ [] := fun h hnil => by
    simp [Io.Ready, hnil] at h
  cases io with
  | keep => rfl
  | drop v => rfl
  | take v =>
    cases jo with
    | keep => rfl
    | drop w => rfl
    | take w => exact List.modify_modify_ne _ _ s.chans hij
    | put w => exact take_put_comm (hnonempty hio)
  | put v =>
    cases jo with
    | keep => rfl
    | drop w => rfl
    | take w => exact (take_put_comm (hnonempty hjo)).symm
    | put w => exact List.modify_modify_ne _ _ s.chans fun hout => hij (outChannel_inj hi hj hout)

/-- Settles O45: each step is still the same after the other, and the two updates of the machines, the channels and the tap commute. -/
theorem completedStepsOfTwoInstancesCommute : Obligations.CompletedStepsOfTwoInstancesCommute := by
  intro s a b i j hs _ hij hi hj hruna hrunninga hrunb hrunningb
  have ha : Completes s i a := ⟨hs, hi, hruna, hrunninga⟩
  have hb : Completes s j b := ⟨hs, hj, hrunb, hrunningb⟩
  obtain ⟨io, m, hio, hpi⟩ := ha.performs
  obtain ⟨jo, n, hjo, hpj⟩ := hb.performs
  have hu := hpj _ (ha.sameEngine hij.symm hb.lt) (ha.ready hij.symm hb.lt_instances hjo)
  have hv := hpi _ (hb.sameEngine hij ha.lt) (hb.ready hij ha.lt_instances hio)
  have hm := ha.machine_running hio hpi
  have hn := hb.machine_running hjo hpj
  have hpresent := (ha.sameEngine hij.symm hb.lt).present'
  have hpresent' := (hb.sameEngine hij ha.lt).present'
  refine ⟨_, _, hu, hv, (congrArg Inst.estate (Io.me_complete jo n hpresent)).trans hn,
    (congrArg Inst.estate (Io.me_complete io m hpresent')).trans hm, ?_⟩
  obtain rfl := ha.eq_complete hio hpi
  obtain rfl := hb.eq_complete hjo hpj
  exact ⟨List.set_comm _ _ hij, chans_comm hij ha.lt_instances hb.lt_instances hio hjo,
    lastOut_comm s.cfg hij s.lastOut io jo, rfl, rfl, rfl⟩

end Sys2Proof.Proofs
